-- ==== Sys2Proof/Word.lean ====
section
/-! DEFINITION. The two basic types: the 32-bit word (00_scope.md R7) and the register number (00_scope.md R8). -/

namespace Sys2Proof

/-- R7: every general register and every memory word is 32 bits wide. R9: so are the word indices. -/
abbrev Word := BitVec 32

/-- R8: NREG = 32 general registers, indexed 0 to 31. A register number only names a register, it is never computed with. -/
abbrev RegIdx := Fin 32

/-- The 5 bits that name a register in an instruction word (R75). -/
abbrev RegIdx.bits (r : RegIdx) : BitVec 5 := BitVec.ofFin r

/-- The register that a 5-bit field names (R75). -/
abbrev RegIdx.ofBits (b : BitVec 5) : RegIdx := b.toFin

end Sys2Proof
end

