-- ==== Sys2Proof/Syntax.lean ====
section
/-! DEFINITION. The instruction set of 00_scope.md R2, whole: 24 instructions and the HALT word, one constructor per row of
spec/opcode_table.json. A field that R77 marks "ignored" stays an argument, so that no bit of a word is lost and the hazard observer can
read it (log 17). -/

namespace Sys2Proof

/-- An instruction with the fields of its format (R71 to R73): `rs rt rd` register numbers, `shamt` bits 10..6, `imm` bits 15..0,
`target` bits 25..0. -/
inductive Instr where
  /-- R103: the all-zero word. -/
  | halt
  /-- R127. `rs` is ignored by the computation. -/
  | sll (rs rt rd : RegIdx) (shamt : BitVec 5)
  /-- R128. `rs` is ignored by the computation. -/
  | srl (rs rt rd : RegIdx) (shamt : BitVec 5)
  /-- R129. `rs` is ignored by the computation. -/
  | sra (rs rt rd : RegIdx) (shamt : BitVec 5)
  /-- R143. `rt`, `rd`, `shamt` are ignored. -/
  | jr (rs rt rd : RegIdx) (shamt : BitVec 5)
  /-- R144. `rt`, `shamt` are ignored. -/
  | jalr (rs rt rd : RegIdx) (shamt : BitVec 5)
  /-- R121. `shamt` is ignored, as in the five after it. -/
  | addu (rs rt rd : RegIdx) (shamt : BitVec 5)
  /-- R122. -/
  | subu (rs rt rd : RegIdx) (shamt : BitVec 5)
  /-- R123. -/
  | and (rs rt rd : RegIdx) (shamt : BitVec 5)
  /-- R124. -/
  | or (rs rt rd : RegIdx) (shamt : BitVec 5)
  /-- R125. -/
  | xor (rs rt rd : RegIdx) (shamt : BitVec 5)
  /-- R126. -/
  | nor (rs rt rd : RegIdx) (shamt : BitVec 5)
  /-- R130. `shamt` is ignored. -/
  | mul (rs rt rd : RegIdx) (shamt : BitVec 5)
  /-- R142. -/
  | j (target : BitVec 26)
  /-- R141. -/
  | jal (target : BitVec 26)
  /-- R146. -/
  | beq (rs rt : RegIdx) (imm : BitVec 16)
  /-- R147. -/
  | bne (rs rt : RegIdx) (imm : BitVec 16)
  /-- R148. `rt` is ignored. -/
  | blez (rs rt : RegIdx) (imm : BitVec 16)
  /-- R149. `rt` is ignored. -/
  | bgtz (rs rt : RegIdx) (imm : BitVec 16)
  /-- R131. -/
  | addiu (rs rt : RegIdx) (imm : BitVec 16)
  /-- R132. -/
  | slti (rs rt : RegIdx) (imm : BitVec 16)
  /-- R133. -/
  | xori (rs rt : RegIdx) (imm : BitVec 16)
  /-- R134. `rs` is ignored by the computation. -/
  | lui (rs rt : RegIdx) (imm : BitVec 16)
  /-- R160. -/
  | lw (rs rt : RegIdx) (imm : BitVec 16)
  /-- R162. -/
  | sw (rs rt : RegIdx) (imm : BitVec 16)
deriving DecidableEq, Repr

/-- The instruction names alone: what the tables of R78 and R79 are indexed by. -/
inductive Op where
  | halt | sll | srl | sra | jr | jalr | addu | subu | and | or | xor | nor | mul
  | j | jal | beq | bne | blez | bgtz | addiu | slti | xori | lui | lw | sw
deriving DecidableEq, Repr

/-- The name of an instruction. -/
def Instr.op : Instr → Op
  | .halt => .halt
  | .sll _ _ _ _ => .sll
  | .srl _ _ _ _ => .srl
  | .sra _ _ _ _ => .sra
  | .jr _ _ _ _ => .jr
  | .jalr _ _ _ _ => .jalr
  | .addu _ _ _ _ => .addu
  | .subu _ _ _ _ => .subu
  | .and _ _ _ _ => .and
  | .or _ _ _ _ => .or
  | .xor _ _ _ _ => .xor
  | .nor _ _ _ _ => .nor
  | .mul _ _ _ _ => .mul
  | .j _ => .j
  | .jal _ => .jal
  | .beq _ _ _ => .beq
  | .bne _ _ _ => .bne
  | .blez _ _ _ => .blez
  | .bgtz _ _ _ => .bgtz
  | .addiu _ _ _ => .addiu
  | .slti _ _ _ => .slti
  | .xori _ _ _ => .xori
  | .lui _ _ _ => .lui
  | .lw _ _ _ => .lw
  | .sw _ _ _ => .sw

/-- The ways `decode` rejects a word (R81). -/
inductive Malformed where
  | unknownOpcode
  | unknownFunct
  | badMulFunct
deriving DecidableEq, Repr

/-- What a word decodes to (R81): an instruction, or a malformed verdict by name. -/
inductive Decoded where
  | instr (i : Instr)
  | malformed (k : Malformed)
deriving DecidableEq, Repr

end Sys2Proof
end

