-- ==== Sys2Proof/WellFormed.lean ====
section
/-! DEFINITION. Which instructions have a word of their own. The operand types bound every field, so the one check left is R127: "sll:
opcode 0x00, funct 0x00, word != 0x00000000". -/

namespace Sys2Proof

/-- R82, R127: the all-zero word is HALT, never `sll $0, $0, 0`. Every other combination of fields is an instruction word (R84). -/
def Instr.wellFormed : Instr → Bool
  | .sll rs rt rd shamt => !(rs == 0 && rt == 0 && rd == 0 && shamt == 0#5)
  | .halt => true
  | .srl _ _ _ _ => true
  | .sra _ _ _ _ => true
  | .jr _ _ _ _ => true
  | .jalr _ _ _ _ => true
  | .addu _ _ _ _ => true
  | .subu _ _ _ _ => true
  | .and _ _ _ _ => true
  | .or _ _ _ _ => true
  | .xor _ _ _ _ => true
  | .nor _ _ _ _ => true
  | .mul _ _ _ _ => true
  | .j _ => true
  | .jal _ => true
  | .beq _ _ _ => true
  | .bne _ _ _ => true
  | .blez _ _ _ => true
  | .bgtz _ _ _ => true
  | .addiu _ _ _ => true
  | .slti _ _ _ => true
  | .xori _ _ _ => true
  | .lui _ _ _ => true
  | .lw _ _ _ => true
  | .sw _ _ _ => true

end Sys2Proof
end

