-- ==== Sys2Proof/Decode.lean ====
section
/-! DEFINITION. The numbers of 30_encoding.md R78 and R79 in one table (R80), the decoder of R81 (total on every word), the field
extraction of R74, and the encoder. The decoder and the observer's classes (Machine/Observer.lean) read the same table. -/

namespace Sys2Proof

/-! ### Fields (R74) -/

/-- `w[31:26]` -/
def opcodeField (w : Word) : BitVec 6 := w.extractLsb' 26 6
/-- `w[25:21]` -/
def rsField (w : Word) : RegIdx := RegIdx.ofBits (w.extractLsb' 21 5)
/-- `w[20:16]` -/
def rtField (w : Word) : RegIdx := RegIdx.ofBits (w.extractLsb' 16 5)
/-- `w[15:11]` -/
def rdField (w : Word) : RegIdx := RegIdx.ofBits (w.extractLsb' 11 5)
/-- `w[10:6]` -/
def shamtField (w : Word) : BitVec 5 := w.extractLsb' 6 5
/-- `w[5:0]` -/
def functField (w : Word) : BitVec 6 := w.extractLsb' 0 6
/-- `w[15:0]` -/
def immField (w : Word) : BitVec 16 := w.extractLsb' 0 16
/-- `w[25:0]` -/
def targetField (w : Word) : BitVec 26 := w.extractLsb' 0 26

/-! ### The configuration table of numbers (R78, R79, R80) -/

/-- R82: the HALT sentinel. -/
def haltWord : Word := 0x00000000#32

/-- R78: the opcode whose instructions the funct field selects (SPECIAL). -/
def specialOpcode : BitVec 6 := 0x00#6

/-- R78, and R79's opcode 0: the primary opcode of each instruction. -/
def opcodeOf : Op → BitVec 6
  | .halt => specialOpcode
  | .sll => specialOpcode
  | .srl => specialOpcode
  | .sra => specialOpcode
  | .jr => specialOpcode
  | .jalr => specialOpcode
  | .addu => specialOpcode
  | .subu => specialOpcode
  | .and => specialOpcode
  | .or => specialOpcode
  | .xor => specialOpcode
  | .nor => specialOpcode
  | .mul => 0x1C#6
  | .j => 0x02#6
  | .jal => 0x03#6
  | .beq => 0x04#6
  | .bne => 0x05#6
  | .blez => 0x06#6
  | .bgtz => 0x07#6
  | .addiu => 0x09#6
  | .slti => 0x0A#6
  | .xori => 0x0E#6
  | .lui => 0x0F#6
  | .lw => 0x23#6
  | .sw => 0x2B#6

/-- R79, and R83 for mul: the funct value dispatch asks of an instruction, none where it checks none. -/
def functOf : Op → Option (BitVec 6)
  | .sll => some 0x00#6
  | .srl => some 0x02#6
  | .sra => some 0x03#6
  | .jr => some 0x08#6
  | .jalr => some 0x09#6
  | .addu => some 0x21#6
  | .subu => some 0x23#6
  | .and => some 0x24#6
  | .or => some 0x25#6
  | .xor => some 0x26#6
  | .nor => some 0x27#6
  | .mul => some 0x02#6
  | .halt => none
  | .j => none
  | .jal => none
  | .beq => none
  | .bne => none
  | .blez => none
  | .bgtz => none
  | .addiu => none
  | .slti => none
  | .xori => none
  | .lui => none
  | .lw => none
  | .sw => none

/-- The rows of R79. -/
def specialOps : List Op := [.sll, .srl, .sra, .jr, .jalr, .addu, .subu, .and, .or, .xor, .nor]

/-- The rows of R78 that the opcode alone selects. -/
def primaryOps : List Op := [.j, .jal, .beq, .bne, .blez, .bgtz, .addiu, .slti, .xori, .lui, .lw, .sw]

/-! ### The decoder (R81) -/

/-- What dispatch finds in a word: an instruction name or a malformed verdict. -/
inductive Dispatched where
  | op (o : Op)
  | malformed (k : Malformed)
deriving DecidableEq, Repr

/-- The name that dispatch finds in a word, in the order of R81: the HALT test, then funct under opcode 0, then the opcode map, with funct
checked again under mul's opcode. No other field is looked at (R84). -/
def opOfWord (w : Word) : Dispatched :=
  if w = haltWord then .op .halt
  else if opcodeField w = specialOpcode then
    match specialOps.find? (fun o => functOf o == some (functField w)) with
    | some o => .op o
    | none => .malformed .unknownFunct
  else if opcodeField w = opcodeOf .mul then
    if functOf .mul = some (functField w) then .op .mul else .malformed .badMulFunct
  else
    match primaryOps.find? (fun o => opcodeOf o == opcodeField w) with
    | some o => .op o
    | none => .malformed .unknownOpcode

/-- The instruction with name `o` and the fields of `w` (R71 to R74). -/
def instrOfFields (o : Op) (w : Word) : Instr :=
  match o with
  | .halt => .halt
  | .sll => .sll (rsField w) (rtField w) (rdField w) (shamtField w)
  | .srl => .srl (rsField w) (rtField w) (rdField w) (shamtField w)
  | .sra => .sra (rsField w) (rtField w) (rdField w) (shamtField w)
  | .jr => .jr (rsField w) (rtField w) (rdField w) (shamtField w)
  | .jalr => .jalr (rsField w) (rtField w) (rdField w) (shamtField w)
  | .addu => .addu (rsField w) (rtField w) (rdField w) (shamtField w)
  | .subu => .subu (rsField w) (rtField w) (rdField w) (shamtField w)
  | .and => .and (rsField w) (rtField w) (rdField w) (shamtField w)
  | .or => .or (rsField w) (rtField w) (rdField w) (shamtField w)
  | .xor => .xor (rsField w) (rtField w) (rdField w) (shamtField w)
  | .nor => .nor (rsField w) (rtField w) (rdField w) (shamtField w)
  | .mul => .mul (rsField w) (rtField w) (rdField w) (shamtField w)
  | .j => .j (targetField w)
  | .jal => .jal (targetField w)
  | .beq => .beq (rsField w) (rtField w) (immField w)
  | .bne => .bne (rsField w) (rtField w) (immField w)
  | .blez => .blez (rsField w) (rtField w) (immField w)
  | .bgtz => .bgtz (rsField w) (rtField w) (immField w)
  | .addiu => .addiu (rsField w) (rtField w) (immField w)
  | .slti => .slti (rsField w) (rtField w) (immField w)
  | .xori => .xori (rsField w) (rtField w) (immField w)
  | .lui => .lui (rsField w) (rtField w) (immField w)
  | .lw => .lw (rsField w) (rtField w) (immField w)
  | .sw => .sw (rsField w) (rtField w) (immField w)

/-- R81: the decode function, total on every word; a malformed word is rejected by name. -/
def decode (w : Word) : Decoded :=
  match opOfWord w with
  | .op o => .instr (instrOfFields o w)
  | .malformed k => .malformed k

/-! ### The encoder -/

/-- R71: the R-format word `{opcode, rs, rt, rd, shamt, funct}`. -/
def rFormat (opcode : BitVec 6) (rs rt rd : RegIdx) (shamt : BitVec 5) (funct : BitVec 6) : Word :=
  opcode ++ rs.bits ++ rt.bits ++ rd.bits ++ shamt ++ funct

/-- R72: the I-format word `{opcode, rs, rt, imm16}`. -/
def iFormat (opcode : BitVec 6) (rs rt : RegIdx) (imm : BitVec 16) : Word :=
  opcode ++ rs.bits ++ rt.bits ++ imm

/-- R73: the J-format word `{opcode, target26}`. -/
def jFormat (opcode : BitVec 6) (target : BitVec 26) : Word :=
  opcode ++ target

/-- An R-format word with the numbers that the table gives instruction `o`. -/
def rWord (o : Op) (rs rt rd : RegIdx) (shamt : BitVec 5) : Word :=
  rFormat (opcodeOf o) rs rt rd shamt ((functOf o).getD 0#6)

/-- An I-format word with the opcode that the table gives instruction `o`. -/
def iWord (o : Op) (rs rt : RegIdx) (imm : BitVec 16) : Word :=
  iFormat (opcodeOf o) rs rt imm

/-- A J-format word with the opcode that the table gives instruction `o`. -/
def jWord (o : Op) (target : BitVec 26) : Word :=
  jFormat (opcodeOf o) target

/-- The word of an instruction (R71 to R73, R78, R79, R82). -/
def encode : Instr → Word
  | .halt => haltWord
  | .sll rs rt rd shamt => rWord .sll rs rt rd shamt
  | .srl rs rt rd shamt => rWord .srl rs rt rd shamt
  | .sra rs rt rd shamt => rWord .sra rs rt rd shamt
  | .jr rs rt rd shamt => rWord .jr rs rt rd shamt
  | .jalr rs rt rd shamt => rWord .jalr rs rt rd shamt
  | .addu rs rt rd shamt => rWord .addu rs rt rd shamt
  | .subu rs rt rd shamt => rWord .subu rs rt rd shamt
  | .and rs rt rd shamt => rWord .and rs rt rd shamt
  | .or rs rt rd shamt => rWord .or rs rt rd shamt
  | .xor rs rt rd shamt => rWord .xor rs rt rd shamt
  | .nor rs rt rd shamt => rWord .nor rs rt rd shamt
  | .mul rs rt rd shamt => rWord .mul rs rt rd shamt
  | .j target => jWord .j target
  | .jal target => jWord .jal target
  | .beq rs rt imm => iWord .beq rs rt imm
  | .bne rs rt imm => iWord .bne rs rt imm
  | .blez rs rt imm => iWord .blez rs rt imm
  | .bgtz rs rt imm => iWord .bgtz rs rt imm
  | .addiu rs rt imm => iWord .addiu rs rt imm
  | .slti rs rt imm => iWord .slti rs rt imm
  | .xori rs rt imm => iWord .xori rs rt imm
  | .lui rs rt imm => iWord .lui rs rt imm
  | .lw rs rt imm => iWord .lw rs rt imm
  | .sw rs rt imm => iWord .sw rs rt imm

/-! ### The opcode table's numbering -/

/-- The word whose low `nbits` bits are those of `w` and whose other bits are 0. An instruction is one 32-bit word (R70), numbered as the
table numbers it. -/
def wordOfTable (nbits w : Nat) : Word := BitVec.ofNat 32 (w % 2 ^ nbits)

/-- The instruction that the decoder reads from a word of spec/opcode_table.json, none where it refuses. -/
def decodeTableWord (nbits w : Nat) : Option Instr :=
  match decode (wordOfTable nbits w) with
  | .instr i => some i
  | .malformed _ => none

end Sys2Proof
end

