-- ==== Sys2Proof/Config.lean ====
section
/-! DEFINITION. The types of the named launch parameters of 00_scope.md R11. Their default values stand in Machine/Defaults.lean, the
opcode and funct numbers (R80) in Decode.lean. REG_INIT, MEMLEN and the image are arguments of `State.launch`. -/

namespace Sys2Proof

/-- R11 SHIFT_EXTRA_READ: which register beside rt the observer counts as read by sll, srl and sra (R176). -/
inductive ShiftExtraRead where
  | none
  | shamt
  | rs
deriving DecidableEq, Repr

/-- The named parameters of R11 that a launch fixes, but for REG_INIT. No step changes them. -/
structure Params where
  /-- BRANCH_BASE: 0 or 1, added to `ir` in every branch target (R140). -/
  branchBase : Fin 2
  /-- R0_WRITE_RECORDED: whether a write to register 0 sets `lastWrite` (R22, R30). -/
  r0WriteRecorded : Bool
  /-- SHIFT_EXTRA_READ (R176). -/
  shiftExtraRead : ShiftExtraRead
  /-- LUI_READS_RS: whether the observer counts rs as read by lui (R176). -/
  luiReadsRs : Bool
deriving DecidableEq, Repr

end Sys2Proof
end

