-- ==== Sys2Proof/Machine/Defaults.lean ====
section
/-! DEFINITION. The launch values that `State.reset` uses: the spec's defaults of the named parameters (00_scope.md R11), and the values
this model chooses where the spec leaves a launch parameter open (logs 5 and 6). -/

namespace Sys2Proof.Machine

/-- The default column of R11 (logs 8, 10, 14, 15). -/
def defaultParams : Params :=
  { branchBase := 1, r0WriteRecorded := true, shiftExtraRead := .shamt, luiReadsRs := false }

/-- R10: MEMLEN is at most 2^31. -/
def maxMemLen : Nat := 2 ^ 31

/-- MEMLEN of `State.reset`: all that R10 allows. DESIGN CHOICE, unsafe: the spec leaves MEMLEN to the launch (log 6). -/
def resetMemLen : Nat := maxMemLen

/-- REG_INIT of `State.reset`. DESIGN CHOICE, unsafe: the spec leaves REG_INIT open (R222, log 5). -/
def resetRegInit (_ : RegIdx) : Word := 0#32

end Sys2Proof.Machine
end

