-- ==== Sys2Proof/Machine/Memory.lean ====
section
/-! DEFINITION. The word store (20_memory.md R50 to R53) as plain data. The unit is the word: R56 says that a model must not give the store
a byte layout. A cell is an index and the word there; an index in bounds with no cell holds `Memory.unlisted` (log 7). -/

namespace Sys2Proof.Machine

/-- The word store: MEMLEN words, code and data together (R50, R38). -/
structure Memory where
  /-- MEMLEN (R10). -/
  len : Nat
  /-- The words that are not `Memory.unlisted`, by index, in rising order. -/
  cells : List (Nat × Word)
deriving DecidableEq, Repr

/-- What an index in bounds with no cell holds. A convention of the representation: every store of words has one list (log 7). -/
def Memory.unlisted : Word := 0#32

/-- The word that a list of cells gives index `k`. -/
def lookupCell : List (Nat × Word) → Nat → Word
  | [], _ => Memory.unlisted
  | c :: cs, k => if c.1 = k then c.2 else lookupCell cs k

/-- The list without index `k`. -/
def eraseCell : List (Nat × Word) → Nat → List (Nat × Word)
  | [], _ => []
  | c :: cs, k => if c.1 = k then eraseCell cs k else c :: eraseCell cs k

/-- The list with a cell for index `k` before the first larger index. -/
def insertCell : List (Nat × Word) → Nat → Word → List (Nat × Word)
  | [], k, v => [(k, v)]
  | c :: cs, k, v => if k < c.1 then (k, v) :: c :: cs else c :: insertCell cs k v

/-- The list after index `k` is given the word `v`; `Memory.unlisted` is never listed. -/
def setCell (cs : List (Nat × Word)) (k : Nat) (v : Word) : List (Nat × Word) :=
  if v = Memory.unlisted then eraseCell cs k else insertCell (eraseCell cs k) k v

/-- R51: an address is in bounds exactly when u(a) < MEMLEN. -/
def Memory.inBounds (m : Memory) (a : Word) : Bool := decide (a.toNat < m.len)

/-- R52 without its fatal error: the word at index `a`, none when `a` is out of bounds. -/
def Memory.read (m : Memory) (a : Word) : Option Word :=
  if m.inBounds a then some (lookupCell m.cells a.toNat) else none

/-- R53 without its fatal error: the store with the word at index `a` replaced, none when `a` is out of bounds. MEMLEN stays. -/
def Memory.write (m : Memory) (a : Word) (v : Word) : Option Memory :=
  if m.inBounds a then some { m with cells := setCell m.cells a.toNat v } else none

/-- The cells of an image whose first word has index `k`. -/
def cellsFrom : Nat → List Word → List (Nat × Word)
  | _, [] => []
  | k, w :: ws => if w = Memory.unlisted then cellsFrom (k + 1) ws else (k, w) :: cellsFrom (k + 1) ws

/-- R67: the store that a launch makes of the loader's word sequence: MEMLEN is its length and `mem[i] = image[i]`. -/
def Memory.ofImage (image : List Word) : Memory :=
  { len := image.length, cells := cellsFrom 0 image }

/-- The canonical form: MEMLEN within R10, indices strictly rising and in bounds, no cell that holds what an unlisted index holds. -/
abbrev Memory.wf (m : Memory) : Prop :=
  m.len ≤ maxMemLen ∧ m.cells.Pairwise (fun c d => c.1 < d.1) ∧ ∀ c ∈ m.cells, c.1 < m.len ∧ c.2 ≠ Memory.unlisted

end Sys2Proof.Machine
end

