-- ==== Sys2Proof/Machine/State.lean ====
section
/-! DEFINITION. The state of the block (10_state.md R20) as plain data, its reset (R41, 70_reset_and_hazards.md R220), and the reasons a
step can stop. -/

namespace Sys2Proof.Machine

/-- The fatal errors of 60_exceptions.md R202. -/
inductive FaultKind where
  | unknownOpcode
  | unknownFunct
  | badMulFunct
  | oobFetch
  | oobLoad
  | oobStore
deriving DecidableEq, Repr

/-- R201: the fault record. -/
structure FaultRecord where
  kind : FaultKind
  /-- The word index of the faulting instruction, or the fetch or peek address. -/
  addr : Word
  /-- The offending word, none for a fetch or peek. -/
  word : Option Word
  /-- The address out of bounds, none for a malformed word. -/
  ea : Option Word
deriving DecidableEq, Repr

/-- R33: the pipeline counters, unbounded (R35, log 16). -/
structure PipelineCounters where
  issueCycles : Nat
  doubleIssues : Nat
  controlStops : Nat
  structuralStops : Nat
  dataStops : Nat
  overlaps : Nat
deriving DecidableEq, Repr

/-- R34: the statistics counters, unbounded (R35, log 16). -/
structure StatCounters where
  instrCount : Nat
  aluCount : Nat
  loadCount : Nat
  storeCount : Nat
  jumpCount : Nat
  jalCount : Nat
  branchTakenCount : Nat
  branchUntakenCount : Nat
deriving DecidableEq, Repr

/-- Where the observer rests between two steps (45_dual_issue_observer.md R183): before an issue cycle, or inside one whose second
instruction is about to be executed (log 1). -/
inductive Phase where
  | ready
  | execB
deriving DecidableEq, Repr

/-- The state of the block: the record of R20, the observer's phase (R183, log 1) and the launch parameters (R11, log 8). -/
structure State where
  /-- The registers `x` (R21). Slot 0 is written by nothing but the step's preamble and read by nothing (R22). -/
  regs : Vector Word 32
  /-- R25: the index of the next instruction to fetch. -/
  pc : Word
  /-- R26: the index of the instruction executing. -/
  ir : Word
  /-- R28. -/
  halted : Bool
  /-- R30: the register that the latest step wrote. -/
  lastWrite : Option RegIdx
  /-- R38. -/
  mem : Memory
  /-- R33. -/
  pipe : PipelineCounters
  /-- R34. -/
  stats : StatCounters
  /-- R36: the classification of the most recent completed issue cycle. -/
  mask : BitVec 6
  /-- R37. -/
  fault : Option FaultRecord
  /-- R183. -/
  phase : Phase
  /-- R11. -/
  params : Params
deriving DecidableEq, Repr

/-- Why no step follows a state. Both end a run as the spec says, so both are safe. -/
inductive Fault where
  /-- The machine has executed HALT: "Once `halted` is true, no further step or issue cycle happens" (R28). Raised by `step` alone. Safe:
  the spec starts no step here (log 3). -/
  | halted
  /-- The machine stopped at the fatal error `r`, which `State.fault` holds: "After that no step, peek or tally happens again" (R201). Raised
  by `step` alone. Safe: the spec starts no step here (log 2). -/
  | fatal (r : FaultRecord)
deriving DecidableEq, Repr

/-- Why the model gives an instruction no meaning. -/
inductive Refusal where
  /-- An instruction that `exec` rejects by its name in the opcode table. Raised by `exec` for an arm with no meaning; no arm is so. Safe:
  a refused step proves nothing. -/
  | notModelled (mnemonic : String)
deriving DecidableEq, Repr

/-- R220: the state that a launch makes of the parameters, the word store (MEMLEN and image) and REG_INIT. `regInit 0` is ignored (D23). -/
def State.launch (params : Params) (mem : Memory) (regInit : RegIdx → Word) : State :=
  { regs := (Vector.ofFn regInit).set 0 0#32
    pc := 0#32
    ir := 0#32
    halted := false
    lastWrite := none
    mem := mem
    pipe := { issueCycles := 0, doubleIssues := 0, controlStops := 0, structuralStops := 0, dataStops := 0, overlaps := 0 }
    stats :=
      { instrCount := 0, aluCount := 0, loadCount := 0, storeCount := 0, jumpCount := 0, jalCount := 0, branchTakenCount := 0,
        branchUntakenCount := 0 }
    mask := 0b000000#6
    fault := none
    phase := .ready
    params := params }

/-- The machine right after reset (R41): the launch with the spec's default parameters, and for the launch parameters that the spec leaves
open this model's choices: every register 0 (log 5), MEMLEN = 2^31 with every word 0x00000000 (log 6). -/
def State.reset : State :=
  State.launch defaultParams { len := resetMemLen, cells := [] } resetRegInit

end Sys2Proof.Machine
end

