-- ==== Sys2Proof/Machine/Ops.lean ====
section
/-! DEFINITION. The state access primitives of 00_scope.md R15 and what every step shares: registers (10_state.md R22), memory (20_memory.md
R52, R53), the fatal error (60_exceptions.md R201), the step's preamble (40_engine.md R101) and counting (R105). The block has no exception
entry and no return from one (R200, R207, R208): the fatal error is all there is. -/

namespace Sys2Proof.Machine

/-- What a meaning answers. -/
abbrev Result := Host.Outcome State Fault Refusal

/-- `r` with `f` applied to its next state. -/
def onNext (f : State → State) (r : Result) : Result :=
  match r with
  | .next s => .next (f s)
  | .fault e => .fault e
  | .refused e => .refused e

/-- `x[i]` (R15). Register 0 is hard-wired to zero: every read returns 0x00000000 (R22). -/
def readReg (s : State) (i : RegIdx) : Word :=
  if i = 0 then 0#32 else s.regs[i]

/-- `x[i] <- v` (R22): a write to register 0 changes no register; `lastWrite` is set, for register 0 only if R0_WRITE_RECORDED. -/
def writeReg (s : State) (i : RegIdx) (v : Word) : State :=
  if i = 0 then
    { s with lastWrite := if s.params.r0WriteRecorded then some i else s.lastWrite }
  else
    { s with regs := s.regs.set i v, lastWrite := some i }

/-- `pc <- t` (R15). -/
def setPc (s : State) (t : Word) : State := { s with pc := t }

/-- `raise Fatal` (R201): the fault record is set, and the issue cycle ends. Nothing else changes (R203). -/
def raiseFatal (s : State) (r : FaultRecord) : State :=
  { s with fault := some r, phase := .ready }

/-- The record of an instruction fetch or peek out of bounds (R202, code 4). -/
def fetchFault (a : Word) : FaultRecord := { kind := .oobFetch, addr := a, word := none, ea := some a }

/-- The fault kind of a malformed word (R202, codes 1 to 3). -/
def malformedKind : Malformed → FaultKind
  | .unknownOpcode => .unknownOpcode
  | .unknownFunct => .unknownFunct
  | .badMulFunct => .badMulFunct

/-- R202: the code of each kind. -/
def FaultKind.code : FaultKind → Nat
  | .unknownOpcode => 1
  | .unknownFunct => 2
  | .badMulFunct => 3
  | .oobFetch => 4
  | .oobLoad => 5
  | .oobStore => 6

/-- The classes that R105 counts an instruction in. -/
inductive StatClass where
  | alu
  | load
  | store
  | jump
  | jal
  | branchTaken
  | branchUntaken
deriving DecidableEq, Repr

/-- R105: 1 more in `instrCount` and in the counter of the class. -/
def countInstr (c : StatCounters) (k : StatClass) : StatCounters :=
  match k with
  | .alu => { c with instrCount := c.instrCount + 1, aluCount := c.aluCount + 1 }
  | .load => { c with instrCount := c.instrCount + 1, loadCount := c.loadCount + 1 }
  | .store => { c with instrCount := c.instrCount + 1, storeCount := c.storeCount + 1 }
  | .jump => { c with instrCount := c.instrCount + 1, jumpCount := c.jumpCount + 1 }
  | .jal => { c with instrCount := c.instrCount + 1, jalCount := c.jalCount + 1 }
  | .branchTaken => { c with instrCount := c.instrCount + 1, branchTakenCount := c.branchTakenCount + 1 }
  | .branchUntaken => { c with instrCount := c.instrCount + 1, branchUntakenCount := c.branchUntakenCount + 1 }

/-- A handler that has completed counts its instruction (R105). -/
def complete (s : State) (k : StatClass) : State := { s with stats := countInstr s.stats k }

/-- A register result: the whole effect of the instructions of 41_alu.md (R120). -/
def writeResult (s : State) (d : RegIdx) (v : Word) (k : StatClass) : State := complete (writeReg s d v) k

/-- The step's preamble (R101), before the fetch: register 0 is zeroed, `lastWrite` cleared, `ir <- pc`, `pc <- pc + 1` modulo 2^32. -/
def preamble (s : State) : State :=
  { s with regs := s.regs.set 0 0#32, lastWrite := none, ir := s.pc, pc := s.pc + 1#32 }

/-- The HALT sentinel's effect (R103). -/
def setHalted (s : State) : State := { s with halted := true }

/-- The observer's phase set (R183). -/
def setPhase (s : State) (p : Phase) : State := { s with phase := p }

/-- The word store replaced. -/
def setMem (s : State) (m : Memory) : State := { s with mem := m }

end Sys2Proof.Machine
end

