-- ==== Sys2Proof/Machine/Operands.lean ====
section
/-! DEFINITION. How each instruction assembles its operands: the immediates of 30_encoding.md R76, the effective address of 43_loadstore.md
R159, and the targets and link value of 42_control.md R140. -/

namespace Sys2Proof.Machine

/-- `sext_32(imm16)` (R14): addiu, slti, the offset of lw and sw, the offset of the branches (R76). -/
def sext32 (imm : BitVec 16) : Word := imm.signExtend 32

/-- `zext_32(imm16)` (R14): xori (R76, D9). -/
def zext32 (imm : BitVec 16) : Word := imm.zeroExtend 32

/-- `imm16 ++ 0x0000`: lui (R76). -/
def upperImm (imm : BitVec 16) : Word := imm ++ 0x0000#16

/-- `ea := x[rs] + sext_32(imm16)`, modulo 2^32, a word index (R159). -/
def effAddr (s : State) (rs : RegIdx) (imm : BitVec 16) : Word := readReg s rs + sext32 imm

/-- BRANCH_BASE as a word (R11). -/
def branchBaseWord (p : Params) : Word := BitVec.ofNat 32 p.branchBase.val

/-- `branchTarget(imm16) := ir + BRANCH_BASE + sext_32(imm16)` (R140, D4). -/
def branchTarget (s : State) (imm : BitVec 16) : Word := s.ir + branchBaseWord s.params + sext32 imm

/-- `jumpTarget(target26) := zext_32(target26)` (R140, D5). -/
def jumpTarget (target : BitVec 26) : Word := target.zeroExtend 32

/-- `linkValue := ir + 1` (R140, D6). -/
def linkValue (s : State) : Word := s.ir + 1#32

/-- The register that jal links into (R141). -/
def linkReg : RegIdx := 31

end Sys2Proof.Machine
end

