-- ==== Sys2Proof/Machine/Flags.lean ====
section
/-! DEFINITION. The block has no flags or condition codes (10_state.md R31). What stands in their place is here: the comparisons that slti
and the branches make of general registers, signed where R135 says so. -/

namespace Sys2Proof.Machine

/-- `bool_32(c)` (R14). -/
def bool32 (c : Bool) : Word := if c then 0x00000001#32 else 0x00000000#32

/-- `a <s b` (R14). -/
def lessSigned (a b : Word) : Bool := a.slt b

/-- `a <=s 0`: blez's condition (R148, D32). -/
def lessEqZero (a : Word) : Bool := a.sle 0#32

/-- `a >s 0`: bgtz's condition (R149, D32). -/
def greaterZero (a : Word) : Bool := (0#32).slt a

end Sys2Proof.Machine
end

