-- ==== Sys2Proof/Machine/Alu.lean ====
section
/-! DEFINITION. The ALU and multiply instructions of 41_alu.md (R120 to R135). Each writes one register through `writeReg`, counts itself
under `aluCount`, leaves `pc` as the preamble left it and raises nothing (R120). Operands are read before the write (R102). -/

namespace Sys2Proof.Machine

/-- addu (R121): `x[rd] <- x[rs] + x[rt]`, modulo 2^32. -/
def execAddu (rs rt rd : RegIdx) (s : State) : Result :=
  .next (writeResult s rd (readReg s rs + readReg s rt) .alu)

/-- subu (R122): `x[rd] <- x[rs] - x[rt]`, modulo 2^32. -/
def execSubu (rs rt rd : RegIdx) (s : State) : Result :=
  .next (writeResult s rd (readReg s rs - readReg s rt) .alu)

/-- and (R123): `x[rd] <- x[rs] & x[rt]`. -/
def execAnd (rs rt rd : RegIdx) (s : State) : Result :=
  .next (writeResult s rd (readReg s rs &&& readReg s rt) .alu)

/-- or (R124): `x[rd] <- x[rs] | x[rt]`. -/
def execOr (rs rt rd : RegIdx) (s : State) : Result :=
  .next (writeResult s rd (readReg s rs ||| readReg s rt) .alu)

/-- xor (R125): `x[rd] <- x[rs] ^ x[rt]`. -/
def execXor (rs rt rd : RegIdx) (s : State) : Result :=
  .next (writeResult s rd (readReg s rs ^^^ readReg s rt) .alu)

/-- nor (R126): `x[rd] <- ~(x[rs] | x[rt])`. -/
def execNor (rs rt rd : RegIdx) (s : State) : Result :=
  .next (writeResult s rd (~~~(readReg s rs ||| readReg s rt)) .alu)

/-- sll (R127): `x[rd] <- x[rt] << u(shamt)`. The shift amount is the field, never a register value (R75). -/
def execSll (rt rd : RegIdx) (shamt : BitVec 5) (s : State) : Result :=
  .next (writeResult s rd (readReg s rt <<< shamt.toNat) .alu)

/-- srl (R128): `x[rd] <- x[rt] >>u u(shamt)`. -/
def execSrl (rt rd : RegIdx) (shamt : BitVec 5) (s : State) : Result :=
  .next (writeResult s rd (readReg s rt >>> shamt.toNat) .alu)

/-- sra (R129): `x[rd] <- x[rt] >>s u(shamt)`. -/
def execSra (rt rd : RegIdx) (shamt : BitVec 5) (s : State) : Result :=
  .next (writeResult s rd ((readReg s rt).sshiftRight shamt.toNat) .alu)

/-- mul (R130, D37): `x[rd] <- (x[rs] * x[rt]) mod 2^32`. -/
def execMul (rs rt rd : RegIdx) (s : State) : Result :=
  .next (writeResult s rd (readReg s rs * readReg s rt) .alu)

/-- addiu (R131): `x[rt] <- x[rs] + sext_32(imm16)`, modulo 2^32. -/
def execAddiu (rs rt : RegIdx) (imm : BitVec 16) (s : State) : Result :=
  .next (writeResult s rt (readReg s rs + sext32 imm) .alu)

/-- slti (R132, D10): `x[rt] <- bool_32(x[rs] <s sext_32(imm16))`. -/
def execSlti (rs rt : RegIdx) (imm : BitVec 16) (s : State) : Result :=
  .next (writeResult s rt (bool32 (lessSigned (readReg s rs) (sext32 imm))) .alu)

/-- xori (R133, D9): `x[rt] <- x[rs] ^ zext_32(imm16)`. -/
def execXori (rs rt : RegIdx) (imm : BitVec 16) (s : State) : Result :=
  .next (writeResult s rt (readReg s rs ^^^ zext32 imm) .alu)

/-- lui (R134): `x[rt] <- imm16 ++ 0x0000`. -/
def execLui (rt : RegIdx) (imm : BitVec 16) (s : State) : Result :=
  .next (writeResult s rt (upperImm imm) .alu)

end Sys2Proof.Machine
end

