-- ==== Sys2Proof/Machine/Control.lean ====
section
/-! DEFINITION. The control-transfer instructions of 42_control.md (R140 to R151). A target is not checked when the transfer executes; a
target out of bounds is a fatal error at the next fetch or peek (R140). No delay slot (R150). -/

namespace Sys2Proof.Machine

/-- jal (R141): `x[31] <- linkValue; pc <- jumpTarget(target26)`. -/
def execJal (target : BitVec 26) (s : State) : Result :=
  .next (setPc (writeResult s linkReg (linkValue s) .jal) (jumpTarget target))

/-- j (R142): `pc <- jumpTarget(target26)`. -/
def execJ (target : BitVec 26) (s : State) : Result :=
  .next (setPc (complete s .jump) (jumpTarget target))

/-- jr (R143): `pc <- x[rs]`; counted as a jump (D8). -/
def execJr (rs : RegIdx) (s : State) : Result :=
  .next (setPc (complete s .jump) (readReg s rs))

/-- jalr (R144, D7): `t := x[rs]; x[rd] <- linkValue; pc <- t`. The target is read before the link is written. -/
def execJalr (rs rd : RegIdx) (s : State) : Result :=
  .next (setPc (writeResult s rd (linkValue s) .jal) (readReg s rs))

/-- What the four conditional branches share (R145). -/
def branchOn (cond : Bool) (imm : BitVec 16) (s : State) : Result :=
  if cond then .next (setPc (complete s .branchTaken) (branchTarget s imm))
  else .next (complete s .branchUntaken)

/-- beq (R146): `cond := (x[rs] == x[rt])`. -/
def execBeq (rs rt : RegIdx) (imm : BitVec 16) (s : State) : Result :=
  branchOn (readReg s rs == readReg s rt) imm s

/-- bne (R147): `cond := (x[rs] != x[rt])`. -/
def execBne (rs rt : RegIdx) (imm : BitVec 16) (s : State) : Result :=
  branchOn (readReg s rs != readReg s rt) imm s

/-- blez (R148): `cond := (x[rs] <=s 0)`. -/
def execBlez (rs : RegIdx) (imm : BitVec 16) (s : State) : Result :=
  branchOn (lessEqZero (readReg s rs)) imm s

/-- bgtz (R149): `cond := (x[rs] >s 0)`. -/
def execBgtz (rs : RegIdx) (imm : BitVec 16) (s : State) : Result :=
  branchOn (greaterZero (readReg s rs)) imm s

end Sys2Proof.Machine
end

