-- ==== Sys2Proof/Machine/LoadStore.lean ====
section
/-! DEFINITION. lw and sw (43_loadstore.md R159 to R163). The bounds check comes before every write, so a fatal error leaves registers and
memory as they were (R104, R203). -/

namespace Sys2Proof.Machine

/-- The fault record of a load or store out of bounds (R202, codes 5 and 6): the address is `ir`, and the word is the instruction's, built
from its fields (log 21). -/
def accessFault (s : State) (k : FaultKind) (w : Word) (ea : Word) : FaultRecord :=
  { kind := k, addr := s.ir, word := some w, ea := some ea }

/-- lw (R160): `v := MemRead(ea, OOB_LOAD); x[rt] <- v`. -/
def execLw (rs rt : RegIdx) (imm : BitVec 16) (s : State) : Result :=
  match s.mem.read (effAddr s rs imm) with
  | some v => .next (writeResult s rt v .load)
  | none => .next (raiseFatal s (accessFault s .oobLoad (encode (.lw rs rt imm)) (effAddr s rs imm)))

/-- sw (R162): `MemWrite(ea, x[rt])`; no register is written. -/
def execSw (rs rt : RegIdx) (imm : BitVec 16) (s : State) : Result :=
  match s.mem.write (effAddr s rs imm) (readReg s rt) with
  | some m => .next (complete (setMem s m) .store)
  | none => .next (raiseFatal s (accessFault s .oobStore (encode (.sw rs rt imm)) (effAddr s rs imm)))

end Sys2Proof.Machine
end

