-- ==== Sys2Proof/Machine/System.lean ====
section
/-! DEFINITION. The HALT sentinel, the only system instruction (40_engine.md R103, 60_exceptions.md R211). -/

namespace Sys2Proof.Machine

/-- HALT (R103): `halted <- true` and nothing else; it adds to no counter. -/
def execHalt (s : State) : Result := .next (setHalted s)

end Sys2Proof.Machine
end

