-- ==== Sys2Proof/Machine/Engine.lean ====
section
/-! DEFINITION. One engine step, the source's `execute_one` (40_engine.md R100, R101, R106). -/

namespace Sys2Proof.Machine

/-- The fault record of a malformed word fetched at `ir` (R106, R202 codes 1 to 3). -/
def malformedFault (s : State) (k : Malformed) (w : Word) : FaultRecord :=
  { kind := malformedKind k, addr := s.ir, word := some w, ea := none }

/-- R101 after the fetch: decode, then HALT, a malformed word or the instruction's own rule. -/
def dispatchWord (w : Word) (s : State) : Result :=
  match decode w with
  | .instr i => exec i s
  | .malformed k => .next (raiseFatal s (malformedFault s k w))

/-- `step()` of R101: the preamble, the fetch of the word at `ir` (R55), and its dispatch. The order of the checks is R204's. -/
def engineStep (s : State) : Result :=
  match s.mem.read (preamble s).ir with
  | some w => dispatchWord w (preamble s)
  | none => .next (raiseFatal (preamble s) (fetchFault (preamble s).ir))

end Sys2Proof.Machine
end

