-- ==== Sys2Proof/Machine/Observer.lean ====
section
/-! DEFINITION. The dual-issue hazard observer and the issue cycle (45_dual_issue_observer.md R170 to R186). The observer works on raw
words, with the opcode and funct numbers of the decoder's table (R80). -/

namespace Sys2Proof.Machine

/-! ### Classes of a raw word (R172) -/

/-- `isHalt(w)` -/
def isHalt (w : Word) : Bool := w == haltWord

/-- The control transfers that the opcode selects. -/
def controlOps : List Op := [.j, .jal, .beq, .bne, .blez, .bgtz]

/-- `isControl(w)`: HALT, j, jal, beq, bne, blez, bgtz, jr or jalr. -/
def isControl (w : Word) : Bool :=
  isHalt w || controlOps.any (fun o => opcodeOf o == opcodeField w) ||
    (opcodeField w == specialOpcode && [Op.jr, Op.jalr].any (fun o => functOf o == some (functField w)))

/-- `isMem(w)`: lw or sw. -/
def isMem (w : Word) : Bool := [Op.lw, Op.sw].any (fun o => opcodeOf o == opcodeField w)

/-- `isMul(w)`: mul's opcode, with any funct (D18). -/
def isMul (w : Word) : Bool := opcodeOf .mul == opcodeField w

/-! ### Hazards (R174 to R176) -/

/-- `structural(a, b)` (R174): one memory port, one multiply unit. -/
def structural (a b : Word) : Bool := (isMem a && isMem b) || (isMul a && isMul b)

/-- The register beside rt that a shift counts as reading (R176, D12). -/
def shiftExtraReads (p : Params) (w : Word) : List RegIdx :=
  match p.shiftExtraRead with
  | .none => []
  | .shamt => [RegIdx.ofBits (shamtField w)]
  | .rs => [rsField w]

/-- `reads(b)` (R176), for a word that dispatch names `o`. -/
def readsOfOp (p : Params) (o : Op) (w : Word) : List RegIdx :=
  match o with
  | .halt => []
  | .addu => [rsField w, rtField w]
  | .subu => [rsField w, rtField w]
  | .and => [rsField w, rtField w]
  | .or => [rsField w, rtField w]
  | .xor => [rsField w, rtField w]
  | .nor => [rsField w, rtField w]
  | .sll => rtField w :: shiftExtraReads p w
  | .srl => rtField w :: shiftExtraReads p w
  | .sra => rtField w :: shiftExtraReads p w
  | .jr => [rsField w]
  | .jalr => [rsField w]
  | .mul => [rsField w, rtField w]
  | .addiu => [rsField w]
  | .slti => [rsField w]
  | .xori => [rsField w]
  | .lw => [rsField w]
  | .sw => [rsField w, rtField w]
  | .beq => [rsField w, rtField w]
  | .bne => [rsField w, rtField w]
  | .blez => [rsField w]
  | .bgtz => [rsField w]
  | .lui => if p.luiReadsRs then [rsField w] else []
  | .j => []
  | .jal => []

/-- `reads(b)` (R176), as a list that stands for a set. DESIGN CHOICE (log 25): a malformed word under mul's opcode reads rs and rt, as the
table of R176 and the vector of L2.9 say, against D15 and I9, which say that every malformed word reads nothing; 90_conflicts.md does not name
the point. Any other malformed word reads nothing (R176, D15). -/
def reads (p : Params) (w : Word) : List RegIdx :=
  match opOfWord w with
  | .op o => readsOfOp p o w
  | .malformed .badMulFunct => [rsField w, rtField w]
  | .malformed .unknownOpcode => []
  | .malformed .unknownFunct => []

/-- `dataDep(lastWrite, b)` (R175). -/
def dataDep (p : Params) (lastWrite : Option RegIdx) (b : Word) : Bool :=
  match lastWrite with
  | none => false
  | some r => (reads p b).contains r

/-! ### Classification (R179, R181) -/

/-- The six results of a classification (R179). -/
inductive IssueClass where
  | dual
  | control
  | structural
  | structuralOverlap
  | data
  | haltAlone
deriving DecidableEq, Repr

/-- The bitmask of a result (R179, D19). -/
def IssueClass.mask : IssueClass → BitVec 6
  | .dual => 0x01#6
  | .control => 0x02#6
  | .structural => 0x04#6
  | .structuralOverlap => 0x14#6
  | .data => 0x08#6
  | .haltAlone => 0x20#6

/-- `classify(a, lw, b)` (R181): HALT alone, then the priorities of R173 to R177. -/
def classify (p : Params) (a : Word) (lastWrite : Option RegIdx) (b : Word) : IssueClass :=
  if isHalt a then .haltAlone
  else if isControl a then .control
  else if structural a b then
    if dataDep p lastWrite b then .structuralOverlap else .structural
  else if dataDep p lastWrite b then .data
  else .dual

/-- Bit `n` of a mask as a count. -/
def maskBit (m : BitVec 6) (n : Nat) : Nat := (m.getLsbD n).toNat

/-- `tally(m)` (R180), at the end of a completed issue cycle; the observer is READY again (R183). -/
def tally (s : State) (m : BitVec 6) : State :=
  { s with
    pipe :=
      { issueCycles := s.pipe.issueCycles + 1
        doubleIssues := s.pipe.doubleIssues + maskBit m 0
        controlStops := s.pipe.controlStops + maskBit m 1
        structuralStops := s.pipe.structuralStops + maskBit m 2
        dataStops := s.pipe.dataStops + maskBit m 3
        overlaps := s.pipe.overlaps + maskBit m 4 }
    mask := m
    phase := .ready }

/-! ### The issue cycle (R170, R171, R183) -/

/-- `peek()` (R171): the word that the next step will fetch, none when `pc` is out of bounds. It writes no state. -/
def peek (s : State) : Option Word := s.mem.read s.pc

/-- The fatal error of a peek out of bounds (R171, R202 code 4). -/
def peekFault (s : State) : State := raiseFatal s (fetchFault s.pc)

/-- A run has not ended: a step may start (R100, R182). -/
def running (s : State) : Bool := !s.halted && s.fault.isNone

/-- R170 after the step of `a`: a fatal error ends the cycle with no tally; HALT and a control transfer end it; otherwise `b` is peeked,
and either a stop ends the cycle or `b` is to be executed in it (phase EXEC_B). -/
def afterFirst (a : Word) (s : State) : State :=
  if s.fault.isSome then s
  else if s.halted then tally s IssueClass.haltAlone.mask
  else if isControl a then tally s IssueClass.control.mask
  else
    match peek s with
    | none => peekFault s
    | some b =>
      match classify s.params a s.lastWrite b with
      | .dual => setPhase s .execB
      | m => tally s m.mask

/-- R170 after the step of `b`: a fatal error ends the cycle with no tally, otherwise the cycle was a dual issue. -/
def afterSecond (s : State) : State :=
  if s.fault.isSome then s else tally s IssueClass.dual.mask

/-- One engine step with the observer's work before and after it. In READY an issue cycle begins with the peek of `a`; in EXEC_B the second
instruction of the open cycle is executed (R183, log 1). No step follows a halt or a fatal error (R28, R37). -/
def observedStep (s : State) : Result :=
  if s.halted then .fault .halted
  else
    match s.fault with
    | some r => .fault (.fatal r)
    | none =>
      match s.phase with
      | .ready =>
        match peek s with
        | none => .next (peekFault s)
        | some a => onNext (afterFirst a) (engineStep s)
      | .execB => onNext afterSecond (engineStep s)

/-- `schedule_cycle()` as R170 writes it, one atomic issue cycle of one or two steps. The precondition is `running s`, in phase READY. -/
def scheduleCycle (s : State) : Result :=
  match peek s with
  | none => .next (peekFault s)
  | some a =>
    match engineStep s with
    | .fault e => .fault e
    | .refused e => .refused e
    | .next s1 =>
      if s1.fault.isSome then .next s1
      else if s1.halted then .next (tally s1 IssueClass.haltAlone.mask)
      else if isControl a then .next (tally s1 IssueClass.control.mask)
      else
        match peek s1 with
        | none => .next (peekFault s1)
        | some b =>
          if classify s1.params a s1.lastWrite b = .dual then
            match engineStep s1 with
            | .fault e => .fault e
            | .refused e => .refused e
            | .next s2 => if s2.fault.isSome then .next s2 else .next (tally s2 IssueClass.dual.mask)
          else .next (tally s1 (classify s1.params a s1.lastWrite b).mask)

/-- How a run under fuel ends (R182): finished in a state that halted or faulted, or not finished, which is never a halt (D33). -/
inductive RunEnd where
  | finished (s : State)
  | notFinished (s : State)
  | refused (e : Refusal)
deriving DecidableEq, Repr

/-- `run()` of R182 under fuel: issue cycles while `halted = false` and `fault = none`. -/
def runCycles : Nat → State → RunEnd
  | 0, s => if running s then .notFinished s else .finished s
  | n + 1, s =>
    if running s then
      match scheduleCycle s with
      | .next t => runCycles n t
      | .fault _ => .finished s
      | .refused e => .refused e
    else .finished s

/-- The plain loop of R184 under fuel: engine steps with no observer. -/
def runSteps : Nat → State → RunEnd
  | 0, s => if running s then .notFinished s else .finished s
  | n + 1, s =>
    if running s then
      match engineStep s with
      | .next t => runSteps n t
      | .fault _ => .finished s
      | .refused e => .refused e
    else .finished s

end Sys2Proof.Machine
end

