-- ==== Sys2Proof/Machine/Step.lean ====
section
/-! DEFINITION. The machine's step, and the placing of an instruction word where the step fetches next. -/

namespace Sys2Proof.Machine

/-- One step: one instruction fetched and executed (R17), with the observer's work around it (R170, R183, log 1). -/
def step (s : State) : Host.Outcome State Fault Refusal := observedStep s

/-- `s` with the word of the opcode table stored at `pc`, so that the next step fetches and runs it: a load by the host (log 6). The store is
made long enough to hold it, and a machine that has stopped is made to run (log 20); in a running state with `pc` in bounds only the word
changes. -/
def State.withFetchWord (s : State) (nbits w : Nat) : State :=
  { s with
    mem := { len := max s.mem.len (s.pc.toNat + 1), cells := setCell s.mem.cells s.pc.toNat (wordOfTable nbits w) }
    halted := false
    fault := none }

end Sys2Proof.Machine
end

