-- ==== Sys2Proof/Safety.lean ====
section
/-! DEFINITION. What claims are stated in: how a run ends (70_reset_and_hazards.md R227), the clean launch (R224), and the invariants that
every step keeps. -/

namespace Sys2Proof.Machine

/-- R227: a run is finished exactly when `halted = true` or `fault != none`. -/
def finished (s : State) : Prop := s.halted = true ∨ s.fault ≠ none

/-- R182: a run that ended at HALT. -/
def haltedRun (s : State) : Prop := s.halted = true ∧ s.fault = none

/-- R182: a run that ended in a fatal error. -/
def faultedRun (s : State) : Prop := s.fault ≠ none

/-- A safe run under fuel: it ends at HALT. Running out of fuel is not an end (D33). -/
def safeRun (fuel : Nat) (s : State) : Prop := ∃ t, runCycles fuel s = .finished t ∧ haltedRun t

/-- R227: a run that is never finished. -/
def hangs (s : State) : Prop := ∀ fuel, ∃ t, runCycles fuel s = .notFinished t

/-- `k` steps of the machine, ending early where no step follows (the host's `Core.run` of this machine). -/
def stepN : Nat → State → Result
  | 0, s => .next s
  | k + 1, s =>
    match step s with
    | .next t => stepN k t
    | .fault e => .fault e
    | .refused e => .refused e

/-- R224: the launch premise for claims, with the parameters and the image (and so MEMLEN) that the claim names and any REG_INIT. -/
def cleanLaunch (params : Params) (image : List Word) (s : State) : Prop :=
  (∃ regInit, s = State.launch params (Memory.ofImage image) regInit) ∧
    s.halted = false ∧ s.fault = none ∧ s.lastWrite = none ∧ s.pc = 0#32 ∧
    s.pipe = { issueCycles := 0, doubleIssues := 0, controlStops := 0, structuralStops := 0, dataStops := 0, overlaps := 0 } ∧
    s.stats =
      { instrCount := 0, aluCount := 0, loadCount := 0, storeCount := 0, jumpCount := 0, jalCount := 0, branchTakenCount := 0,
        branchUntakenCount := 0 }

/-- 1 for true, 0 for false. -/
def countIf (b : Bool) : Nat := b.toNat

/-- The shape of every state of a run: the word store in canonical form within R10's bound, the storage of register 0 zero (R22), an ended
machine between cycles and ended in one way only (R182, R183), and in phase EXEC_B a second instruction that was peeked in bounds (R170). -/
structure StateInv (s : State) : Prop where
  memory : s.mem.wf
  slotZero : s.regs[0] = 0#32
  haltedEnd : s.halted = true → s.fault = none ∧ s.phase = .ready
  faultedEnd : s.fault ≠ none → s.phase = .ready
  secondPeeked : s.phase = .execB → (peek s).isSome = true ∧ s.pc = s.ir + 1#32

/-- The values that `mask` can hold: 0 before the first completed cycle (R36) and the six of R179. -/
def maskValues : List (BitVec 6) := [0x00#6, 0x01#6, 0x02#6, 0x04#6, 0x14#6, 0x08#6, 0x20#6]

/-- R34: `instrCount` is the sum of the class counters. -/
def classSum (c : StatCounters) : Nat :=
  c.aluCount + c.loadCount + c.storeCount + c.jumpCount + c.jalCount + c.branchTakenCount + c.branchUntakenCount

/-- The counter identities of R34 and R185, as they stand between two steps. S of R185 is `instrCount` and the HALT step; a cycle that is open
(phase EXEC_B) has executed an instruction and is not tallied yet. H of R185 is whether `mask` is HALT_ALONE. -/
structure CounterInv (s : State) : Prop where
  classes : s.stats.instrCount = classSum s.stats
  steps : s.fault = none →
    s.pipe.issueCycles + s.pipe.doubleIssues + countIf (s.phase == .execB) = s.stats.instrCount + countIf s.halted
  stops : s.pipe.controlStops + s.pipe.structuralStops + s.pipe.dataStops + s.pipe.doubleIssues + countIf (s.mask == 0x20#6) =
    s.pipe.issueCycles
  overlaps : s.pipe.overlaps ≤ s.pipe.structuralStops
  maskRange : s.mask ∈ maskValues
  maskFresh : s.mask = 0x00#6 ↔ s.pipe.issueCycles = 0
  haltAlone : s.mask = 0x20#6 → s.halted = true

end Sys2Proof.Machine
end

