-- ==== Sys2Proof/Certificates/Slice0/Obligations.lean ====
section
/-! DEFINITION. The statements for the provers. Each docstring names the rule of spec/ it formalises; where a clause rests on a decision
of 92_eei_decisions.md or on a choice of this model, it says so and names the decision or the log entry. For all of them at once: the numbers
of opcodes and functs are the spec's own choice, MIPS32's (R12, D3, log 9), the membership of the eight statistics counters is D20's (R34,
log 13), the layout of `mask` is D19's (log 15), the fault record's kinds are D24's (R201), and addresses are 32 bits, modulo 2^32 (D1). -/

namespace Sys2Proof.Stated
open Sys2Proof.Machine

/-! ### Words the statements are made of -/

/-- The counters after one instruction of class `k` has completed (R105): each of the eight named. -/
structure Counted (c c' : StatCounters) (k : StatClass) : Prop where
  instr : c'.instrCount = c.instrCount + 1
  alu : c'.aluCount = c.aluCount + countIf (k == .alu)
  load : c'.loadCount = c.loadCount + countIf (k == .load)
  store : c'.storeCount = c.storeCount + countIf (k == .store)
  jump : c'.jumpCount = c.jumpCount + countIf (k == .jump)
  jal : c'.jalCount = c.jalCount + countIf (k == .jal)
  taken : c'.branchTakenCount = c.branchTakenCount + countIf (k == .branchTaken)
  untaken : c'.branchUntakenCount = c.branchUntakenCount + countIf (k == .branchUntaken)

/-- The word store reads as before at every address, and MEMLEN is the same. -/
def MemoryKept (s t : State) : Prop := t.mem.len = s.mem.len ∧ ∀ a, t.mem.read a = s.mem.read a

/-- What no instruction writes, and HALT and the fatal errors apart: `ir`, `halted`, `fault`, the observer's counters, mask and phase, the
launch parameters. -/
structure RestKept (s t : State) : Prop where
  ir : t.ir = s.ir
  halted : t.halted = s.halted
  fault : t.fault = s.fault
  pipe : t.pipe = s.pipe
  mask : t.mask = s.mask
  phase : t.phase = s.phase
  params : t.params = s.params

/-- The whole effect, but for memory, of an instruction that completes: the destination register, if it has one, gets the value, unless it
is register 0, which discards it (R22), and every other register is unchanged; `lastWrite` names the destination, register 0 only if
R0_WRITE_RECORDED (R30), and is left alone by an instruction without one; `pc` is `pc'`; the counters are those of class `k`. -/
structure Completes (s t : State) (dest : Option (RegIdx × Word)) (pc' : Word) (k : StatClass) : Prop where
  regs : ∀ r, readReg t r =
    match dest with
    | some (d, v) => if r = d ∧ d ≠ 0 then v else readReg s r
    | none => readReg s r
  lastWrite : t.lastWrite =
    match dest with
    | some (d, _) => if d = 0 ∧ s.params.r0WriteRecorded = false then s.lastWrite else some d
    | none => s.lastWrite
  pc : t.pc = pc'
  counters : Counted s.stats t.stats k
  rest : RestKept s t

/-- An instruction that completes in every state and stores nothing, with destination and value `d`, `v`, and `pc` left alone. -/
def ComputesInto (i : Instr) (d : RegIdx) (v : State → Word) : Prop :=
  ∀ s, ∃ t, exec i s = .next t ∧ Completes s t (some (d, v s)) s.pc .alu ∧ MemoryKept s t

/-- A conditional branch (R145): it completes in every state, writes no register and no memory, and goes to `ir + BRANCH_BASE + offset`
when the condition holds, on to the next instruction when not. -/
def BranchesOn (i : Instr) (imm : BitVec 16) (cond : State → Prop) : Prop :=
  (∀ s, cond s → ∃ t, exec i s = .next t ∧ MemoryKept s t ∧
    Completes s t none (BitVec.ofInt 32 (s.ir.toNat + s.params.branchBase.val + imm.toInt)) .branchTaken) ∧
  ∀ s, ¬cond s → ∃ t, exec i s = .next t ∧ MemoryKept s t ∧ Completes s t none s.pc .branchUntaken

/-- `ea := x[rs] + sext_32(imm16)` modulo 2^32 (R159), computed exactly and narrowed. -/
def wordIndex (s : State) (rs : RegIdx) (imm : BitVec 16) : Word := BitVec.ofInt 32 ((readReg s rs).toInt + imm.toInt)

/-- What a claim may rely on after a fatal error (R203): the record and the counters. -/
structure Faulted (s t : State) (r : FaultRecord) : Prop where
  fault : t.fault = some r
  stats : t.stats = s.stats
  pipe : t.pipe = s.pipe
  mask : t.mask = s.mask

/-- The engine's fields of R184 agree: `x`, `mem`, `pc`, `ir`, `halted`, `fault`, the statistics counters, and `lastWrite`. -/
structure SameEngine (s t : State) : Prop where
  regs : ∀ r, readReg s r = readReg t r
  mem : s.mem = t.mem
  pc : s.pc = t.pc
  ir : s.ir = t.ir
  halted : s.halted = t.halted
  fault : s.fault = t.fault
  lastWrite : s.lastWrite = t.lastWrite
  stats : s.stats = t.stats

/-- How two finished runs agree (R184): the same fatal error or none, the same `halted` and statistics counters, and, without a fatal error, the
same registers, memory, `pc`, `ir` and `lastWrite` (after one, R203 lets no claim rely on those). -/
def SameEnd (t u : State) : Prop :=
  u.fault = t.fault ∧ u.halted = t.halted ∧ u.stats = t.stats ∧ (t.fault = none → SameEngine t u)

/-- The instructions that transfer control (R27). -/
def isTransfer : Instr → Bool
  | .j _ | .jal _ | .jr _ _ _ _ | .jalr _ _ _ _ | .beq _ _ _ | .bne _ _ _ | .blez _ _ _ | .bgtz _ _ _ => true
  | _ => false

/-- The read-set table of R176 by instruction. -/
def readSet (p : Params) : Instr → List RegIdx
  | .halt | .j _ | .jal _ => []
  | .addu rs rt _ _ | .subu rs rt _ _ | .and rs rt _ _ | .or rs rt _ _ | .xor rs rt _ _ | .nor rs rt _ _ | .mul rs rt _ _ => [rs, rt]
  | .sll rs rt _ shamt | .srl rs rt _ shamt | .sra rs rt _ shamt =>
    match p.shiftExtraRead with
    | .none => [rt]
    | .shamt => [rt, RegIdx.ofBits shamt]
    | .rs => [rt, rs]
  | .jr rs _ _ _ | .jalr rs _ _ _ => [rs]
  | .addiu rs _ _ | .slti rs _ _ | .xori rs _ _ | .lw rs _ _ | .blez rs _ _ | .bgtz rs _ _ => [rs]
  | .sw rs rt _ | .beq rs rt _ | .bne rs rt _ => [rs, rt]
  | .lui rs _ _ => if p.luiReadsRs then [rs] else []

/-- The pipeline counters after a tally that adds 1 to `issueCycles` and the given amounts to the other five (R180). -/
def Tallied (c c' : PipelineCounters) (double control structural data overlap : Nat) : Prop :=
  c'.issueCycles = c.issueCycles + 1 ∧ c'.doubleIssues = c.doubleIssues + double ∧ c'.controlStops = c.controlStops + control ∧
    c'.structuralStops = c.structuralStops + structural ∧ c'.dataStops = c.dataStops + data ∧ c'.overlaps = c.overlaps + overlap

/-- The first instruction `a` of a cycle has been executed without a fatal error and is neither HALT nor a control transfer, and the next
word is `b`: where the observer classifies the pair (R170). `u` is the state that the engine step of `a` left. -/
structure PairAt (s u : State) (a b : Word) : Prop where
  running : s.halted = false ∧ s.fault = none
  ready : s.phase = .ready
  first : peek s = some a
  ran : engineStep s = .next u
  clean : u.fault = none
  plain : ∃ i, decode a = .instr i ∧ i ≠ .halt ∧ isTransfer i = false
  second : peek u = some b

/-- The structural condition of R174 in R172's numbers: both words lw or sw (opcode 0x23 or 0x2B), or both under opcode 0x1C. -/
def SharesUnit (a b : Word) : Prop :=
  (opcodeField a ∈ [0x23#6, 0x2B#6] ∧ opcodeField b ∈ [0x23#6, 0x2B#6]) ∨ (opcodeField a = 0x1C#6 ∧ opcodeField b = 0x1C#6)

/-- The data-dependency condition of R175: the register that `a`'s step wrote is in `reads(b)`. -/
def DataDependent (u : State) (b : Word) : Prop := ∃ r, u.lastWrite = some r ∧ r ∈ reads u.params b

end Sys2Proof.Stated

open Sys2Proof Sys2Proof.Machine Sys2Proof.Stated

/-! ### Launch and reset -/

/-- R41, R220, R67: what a launch leaves, for every parameter choice, image and REG_INIT. The values of `pc`, `ir`, `halted`, `lastWrite` and
the counters are D22's, `mask` D19's, `fault` D24's. -/
def Obligations.LaunchGivesResetValues : Prop :=
  ∀ (p : Params) (image : List Word) (regInit : RegIdx → Word) (s : State), s = State.launch p (Memory.ofImage image) regInit →
    readReg s 0 = 0#32 ∧ (∀ r, r ≠ 0 → readReg s r = regInit r) ∧ s.pc = 0#32 ∧ s.ir = 0#32 ∧ s.halted = false ∧ s.lastWrite = none ∧
    s.mem.len = image.length ∧ (∀ a, s.mem.read a = image[a.toNat]?) ∧
    (s.pipe.issueCycles = 0 ∧ s.pipe.doubleIssues = 0 ∧ s.pipe.controlStops = 0 ∧ s.pipe.structuralStops = 0 ∧ s.pipe.dataStops = 0 ∧
      s.pipe.overlaps = 0) ∧
    (s.stats.instrCount = 0 ∧ s.stats.aluCount = 0 ∧ s.stats.loadCount = 0 ∧ s.stats.storeCount = 0 ∧ s.stats.jumpCount = 0 ∧
      s.stats.jalCount = 0 ∧ s.stats.branchTakenCount = 0 ∧ s.stats.branchUntakenCount = 0) ∧
    s.mask = 0x00#6 ∧ s.fault = none ∧ s.phase = .ready ∧ s.params = p

/-- The model's choices at `State.reset`, where the spec leaves the launch parameters open: every register 0 (log 5), MEMLEN = 2^31 and every
word 0x00000000 (log 6), R11's defaults (log 8). -/
def Obligations.ResetTakesTheModelsLaunchValues : Prop :=
  (∀ r, readReg State.reset r = 0#32) ∧ State.reset.mem.len = 2 ^ 31 ∧
    (∀ a : Word, State.reset.mem.read a = if a.toNat < 2 ^ 31 then some 0#32 else none) ∧
    State.reset.params = { branchBase := 1, r0WriteRecorded := true, shiftExtraRead := .shamt, luiReadsRs := false }

/-! ### Encoding -/

/-- Words of the spec's examples (41_alu.md, 42_control.md, 43_loadstore.md, 95_test_vectors.md L2.1), one per family and one per malformed
kind. -/
def Obligations.SpecExampleWordsDecode : Prop :=
  decode 0x00000000#32 = .instr .halt ∧ decode 0x00430821#32 = .instr (.addu 2 3 1 0#5) ∧
    decode 0x00A20900#32 = .instr (.sll 5 2 1 4#5) ∧ decode 0x70430802#32 = .instr (.mul 2 3 1 0#5) ∧
    decode 0x2441FFFF#32 = .instr (.addiu 2 1 0xFFFF#16) ∧ decode 0x1022FFFE#32 = .instr (.beq 1 2 0xFFFE#16) ∧
    decode 0x0C00000A#32 = .instr (.jal 10#26) ∧ decode 0x00A0F809#32 = .instr (.jalr 5 0 31 0#5) ∧
    decode 0x8C410002#32 = .instr (.lw 2 1 2#16) ∧ decode 0xAC41FFFF#32 = .instr (.sw 2 1 0xFFFF#16) ∧
    decode 0x00430820#32 = .malformed .unknownFunct ∧ decode 0x20410001#32 = .malformed .unknownOpcode ∧
    decode 0x70A62018#32 = .malformed .badMulFunct

/-- R70 to R82: the word of a well-formed instruction decodes to it, with every field, the ignored ones too. -/
def Obligations.EncodeThenDecodeIsIdentity : Prop :=
  ∀ i : Instr, i.wellFormed = true → decode (encode i) = .instr i

/-- R70 to R82, R84: a word that decodes to an instruction is that instruction's word, so no bit is dropped and no two instructions share a
word. -/
def Obligations.DecodeThenEncodeIsIdentity : Prop :=
  ∀ (w : Word) (i : Instr), decode w = .instr i → i.wellFormed = true ∧ encode i = w

/-- R86 (30_encoding.md section 4) with the kinds of R202 rows 1 to 3: the illegal words are exactly these, and everything else decodes. -/
def Obligations.IllegalWordsAreExactlyTheListed : Prop :=
  ∀ w : Word,
    (decode w = .malformed .unknownFunct ↔
      opcodeField w = 0x00#6 ∧ w ≠ 0x00000000#32 ∧
        functField w ∉ [0x00#6, 0x02#6, 0x03#6, 0x08#6, 0x09#6, 0x21#6, 0x23#6, 0x24#6, 0x25#6, 0x26#6, 0x27#6]) ∧
    (decode w = .malformed .badMulFunct ↔ opcodeField w = 0x1C#6 ∧ functField w ≠ 0x02#6) ∧
    (decode w = .malformed .unknownOpcode ↔
      opcodeField w ∉ [0x00#6, 0x02#6, 0x03#6, 0x04#6, 0x05#6, 0x06#6, 0x07#6, 0x09#6, 0x0A#6, 0x0E#6, 0x0F#6, 0x1C#6, 0x23#6, 0x2B#6])

/-! ### Registers and memory -/

/-- R22, R30: register 0 reads as zero in every state, a write to it changes no register's value and records itself only under
R0_WRITE_RECORDED (D11), and a write to another register is seen by its reads alone. -/
def Obligations.RegisterZeroIsHardWired : Prop :=
  ∀ (s : State) (d r : RegIdx) (v : Word),
    readReg s 0 = 0#32 ∧ readReg (writeReg s 0 v) r = readReg s r ∧ (d ≠ 0 → readReg (writeReg s d v) d = v) ∧
    (r ≠ d → readReg (writeReg s d v) r = readReg s r) ∧ (d ≠ 0 → (writeReg s d v).lastWrite = some d) ∧
    (writeReg s 0 v).lastWrite = if s.params.r0WriteRecorded then some 0 else s.lastWrite

/-- R51 to R53, R61: a read answers the word exactly in bounds; a write answers exactly in bounds, replaces the whole word at its index,
leaves every other index and keeps MEMLEN. -/
def Obligations.MemoryReadsTheLatestWrite : Prop :=
  ∀ (m : Memory) (a v : Word),
    ((m.read a).isSome = true ↔ a.toNat < m.len) ∧ ((m.write a v).isSome = true ↔ a.toNat < m.len) ∧
    ∀ m', m.write a v = some m' → m'.len = m.len ∧ m'.read a = some v ∧ ∀ b, b ≠ a → m'.read b = m.read b

/-! ### HALT (40_engine.md) -/

/-- R103, R82: HALT is the all-zero word and no other; it sets `halted` and does nothing else. -/
def Obligations.HaltOnlyHalts : Prop :=
  (∀ w : Word, decode w = .instr .halt ↔ w = 0x00000000#32) ∧
    ∀ s, ∃ t, exec .halt s = .next t ∧ t.halted = true ∧ (∀ r, readReg t r = readReg s r) ∧ MemoryKept s t ∧ t.stats = s.stats ∧
      t.lastWrite = s.lastWrite ∧ t.ir = s.ir ∧ t.pc = s.pc ∧ t.fault = s.fault ∧ t.pipe = s.pipe ∧ t.mask = s.mask ∧ t.phase = s.phase ∧
      t.params = s.params

/-! ### ALU and multiply (41_alu.md) -/

/-- R121. -/
def Obligations.AdduAddsModuloTwoPow32 : Prop :=
  ∀ (rs rt rd : RegIdx) (shamt : BitVec 5),
    decode (rFormat 0x00#6 rs rt rd shamt 0x21#6) = .instr (.addu rs rt rd shamt) ∧
    ComputesInto (.addu rs rt rd shamt) rd fun s => BitVec.ofNat 32 ((readReg s rs).toNat + (readReg s rt).toNat)

/-- R122. -/
def Obligations.SubuSubtractsModuloTwoPow32 : Prop :=
  ∀ (rs rt rd : RegIdx) (shamt : BitVec 5),
    decode (rFormat 0x00#6 rs rt rd shamt 0x23#6) = .instr (.subu rs rt rd shamt) ∧
    ComputesInto (.subu rs rt rd shamt) rd fun s => BitVec.ofInt 32 (((readReg s rs).toNat : Int) - (readReg s rt).toNat)

/-- R123. -/
def Obligations.AndWritesBitwiseAnd : Prop :=
  ∀ (rs rt rd : RegIdx) (shamt : BitVec 5),
    decode (rFormat 0x00#6 rs rt rd shamt 0x24#6) = .instr (.and rs rt rd shamt) ∧
    ComputesInto (.and rs rt rd shamt) rd fun s => readReg s rs &&& readReg s rt

/-- R124. -/
def Obligations.OrWritesBitwiseOr : Prop :=
  ∀ (rs rt rd : RegIdx) (shamt : BitVec 5),
    decode (rFormat 0x00#6 rs rt rd shamt 0x25#6) = .instr (.or rs rt rd shamt) ∧
    ComputesInto (.or rs rt rd shamt) rd fun s => readReg s rs ||| readReg s rt

/-- R125. -/
def Obligations.XorWritesBitwiseXor : Prop :=
  ∀ (rs rt rd : RegIdx) (shamt : BitVec 5),
    decode (rFormat 0x00#6 rs rt rd shamt 0x26#6) = .instr (.xor rs rt rd shamt) ∧
    ComputesInto (.xor rs rt rd shamt) rd fun s => readReg s rs ^^^ readReg s rt

/-- R126. -/
def Obligations.NorWritesBitwiseNor : Prop :=
  ∀ (rs rt rd : RegIdx) (shamt : BitVec 5),
    decode (rFormat 0x00#6 rs rt rd shamt 0x27#6) = .instr (.nor rs rt rd shamt) ∧
    ComputesInto (.nor rs rt rd shamt) rd fun s => ~~~(readReg s rs ||| readReg s rt)

/-- R127: the word is sll's unless it is the all-zero word; bits shifted past bit 31 are lost, rs is ignored. -/
def Obligations.SllShiftsLeftByShamt : Prop :=
  ∀ (rs rt rd : RegIdx) (shamt : BitVec 5),
    (rFormat 0x00#6 rs rt rd shamt 0x00#6 ≠ 0x00000000#32 →
      decode (rFormat 0x00#6 rs rt rd shamt 0x00#6) = .instr (.sll rs rt rd shamt)) ∧
    ComputesInto (.sll rs rt rd shamt) rd fun s => BitVec.ofNat 32 ((readReg s rt).toNat * 2 ^ shamt.toNat)

/-- R128: zeros fill from bit 31, rs is ignored. -/
def Obligations.SrlShiftsRightLogicalByShamt : Prop :=
  ∀ (rs rt rd : RegIdx) (shamt : BitVec 5),
    decode (rFormat 0x00#6 rs rt rd shamt 0x02#6) = .instr (.srl rs rt rd shamt) ∧
    ComputesInto (.srl rs rt rd shamt) rd fun s => BitVec.ofNat 32 ((readReg s rt).toNat / 2 ^ shamt.toNat)

/-- R129: copies of bit 31 fill from the top, so the signed value is divided rounding down; rs is ignored. -/
def Obligations.SraShiftsRightArithmeticByShamt : Prop :=
  ∀ (rs rt rd : RegIdx) (shamt : BitVec 5),
    decode (rFormat 0x00#6 rs rt rd shamt 0x03#6) = .instr (.sra rs rt rd shamt) ∧
    ComputesInto (.sra rs rt rd shamt) rd fun s => BitVec.ofInt 32 ((readReg s rt).toInt / 2 ^ shamt.toNat)

/-- R130: the low 32 bits of the product, into rd (the spec's choice, D37), the same for signed and unsigned operands. -/
def Obligations.MulWritesLowProduct : Prop :=
  ∀ (rs rt rd : RegIdx) (shamt : BitVec 5),
    decode (rFormat 0x1C#6 rs rt rd shamt 0x02#6) = .instr (.mul rs rt rd shamt) ∧
    ComputesInto (.mul rs rt rd shamt) rd (fun s => BitVec.ofNat 32 ((readReg s rs).toNat * (readReg s rt).toNat)) ∧
    ComputesInto (.mul rs rt rd shamt) rd (fun s => BitVec.ofInt 32 ((readReg s rs).toInt * (readReg s rt).toInt))

/-- R131: the immediate is sign-extended, there is no overflow trap. -/
def Obligations.AddiuAddsSignedImmediate : Prop :=
  ∀ (rs rt : RegIdx) (imm : BitVec 16),
    decode (iFormat 0x09#6 rs rt imm) = .instr (.addiu rs rt imm) ∧
    ComputesInto (.addiu rs rt imm) rt fun s => BitVec.ofInt 32 ((readReg s rs).toInt + imm.toInt)

/-- R132: a signed compare with the sign-extended immediate (the extension is the spec's choice, D10). -/
def Obligations.SltiComparesSigned : Prop :=
  ∀ (rs rt : RegIdx) (imm : BitVec 16),
    decode (iFormat 0x0A#6 rs rt imm) = .instr (.slti rs rt imm) ∧
    ComputesInto (.slti rs rt imm) rt fun s => if (readReg s rs).toInt < imm.toInt then 1#32 else 0#32

/-- R133: the immediate is zero-extended (the spec's choice, D9). -/
def Obligations.XoriFlipsLowHalf : Prop :=
  ∀ (rs rt : RegIdx) (imm : BitVec 16),
    decode (iFormat 0x0E#6 rs rt imm) = .instr (.xori rs rt imm) ∧
    ComputesInto (.xori rs rt imm) rt fun s => readReg s rs ^^^ BitVec.ofNat 32 imm.toNat

/-- R134: the lower 16 bits are zero, rs is ignored. -/
def Obligations.LuiLoadsUpperHalf : Prop :=
  ∀ (rs rt : RegIdx) (imm : BitVec 16),
    decode (iFormat 0x0F#6 rs rt imm) = .instr (.lui rs rt imm) ∧
    ComputesInto (.lui rs rt imm) rt fun _ => BitVec.ofNat 32 (imm.toNat * 2 ^ 16)

/-! ### Control transfers (42_control.md) -/

/-- R142, with R140's target: the zero-extended field (the spec's choice, D5). -/
def Obligations.JumpGoesToTarget : Prop :=
  ∀ target : BitVec 26,
    decode (jFormat 0x02#6 target) = .instr (.j target) ∧
    ∀ s, ∃ t, exec (.j target) s = .next t ∧ Completes s t none (BitVec.ofNat 32 target.toNat) .jump ∧ MemoryKept s t

/-- R141, with R140's target (D5) and link value `ir + 1` (D6), which goes into register 31. -/
def Obligations.JumpAndLinkLinksRegister31 : Prop :=
  ∀ target : BitVec 26,
    decode (jFormat 0x03#6 target) = .instr (.jal target) ∧
    ∀ s, ∃ t, exec (.jal target) s = .next t ∧
      Completes s t (some (31, BitVec.ofNat 32 (s.ir.toNat + 1))) (BitVec.ofNat 32 target.toNat) .jal ∧ MemoryKept s t

/-- R143: counted as a jump (the spec's choice, D8). -/
def Obligations.JumpRegisterGoesToRegister : Prop :=
  ∀ (rs rt rd : RegIdx) (shamt : BitVec 5),
    decode (rFormat 0x00#6 rs rt rd shamt 0x08#6) = .instr (.jr rs rt rd shamt) ∧
    ∀ s, ∃ t, exec (.jr rs rt rd shamt) s = .next t ∧ Completes s t none (readReg s rs) .jump ∧ MemoryKept s t

/-- R144: the target is the old `x[rs]` also when rd = rs; the link `ir + 1` (D6) goes into rd (D7), counted as a jump and link (D8). -/
def Obligations.JumpAndLinkRegisterReadsBeforeLinking : Prop :=
  ∀ (rs rt rd : RegIdx) (shamt : BitVec 5),
    decode (rFormat 0x00#6 rs rt rd shamt 0x09#6) = .instr (.jalr rs rt rd shamt) ∧
    ∀ s, ∃ t, exec (.jalr rs rt rd shamt) s = .next t ∧
      Completes s t (some (rd, BitVec.ofNat 32 (s.ir.toNat + 1))) (readReg s rs) .jal ∧ MemoryKept s t

/-- R146 with R145, and R140's target for either BRANCH_BASE (D4). -/
def Obligations.BeqBranchesOnEqual : Prop :=
  ∀ (rs rt : RegIdx) (imm : BitVec 16),
    decode (iFormat 0x04#6 rs rt imm) = .instr (.beq rs rt imm) ∧
    BranchesOn (.beq rs rt imm) imm fun s => readReg s rs = readReg s rt

/-- R147 with R145, and R140's target for either BRANCH_BASE (D4). -/
def Obligations.BneBranchesOnNotEqual : Prop :=
  ∀ (rs rt : RegIdx) (imm : BitVec 16),
    decode (iFormat 0x05#6 rs rt imm) = .instr (.bne rs rt imm) ∧
    BranchesOn (.bne rs rt imm) imm fun s => readReg s rs ≠ readReg s rt

/-- R148 with R145: signed (the spec's choice, D32), R140's target for either BRANCH_BASE (D4). -/
def Obligations.BlezBranchesOnNotPositive : Prop :=
  ∀ (rs rt : RegIdx) (imm : BitVec 16),
    decode (iFormat 0x06#6 rs rt imm) = .instr (.blez rs rt imm) ∧
    BranchesOn (.blez rs rt imm) imm fun s => (readReg s rs).toInt ≤ 0

/-- R149 with R145: signed (the spec's choice, D32), R140's target for either BRANCH_BASE (D4). -/
def Obligations.BgtzBranchesOnPositive : Prop :=
  ∀ (rs rt : RegIdx) (imm : BitVec 16),
    decode (iFormat 0x07#6 rs rt imm) = .instr (.bgtz rs rt imm) ∧
    BranchesOn (.bgtz rs rt imm) imm fun s => 0 < (readReg s rs).toInt

/-! ### Load and store (43_loadstore.md) -/

/-- R159, R160: lw loads the whole word at `ea` into rt when `ea` is in bounds, and else raises OOB_LOAD with no register written. The fault
clause is R202's row 5 and R203's: the record's fields are D24's, that no counter changes is D29's, and that the record's word is built again
from the fields is this model's inference (log 21). (What R160 says of the registers after the fatal error is stated here only: R203 warns that
no other claim may rely on it.) -/
def Obligations.LwLoadsOrFaults : Prop :=
  ∀ (rs rt : RegIdx) (imm : BitVec 16),
    decode (iFormat 0x23#6 rs rt imm) = .instr (.lw rs rt imm) ∧
    (∀ s, (wordIndex s rs imm).toNat < s.mem.len → ∃ t v, exec (.lw rs rt imm) s = .next t ∧ s.mem.read (wordIndex s rs imm) = some v ∧
      Completes s t (some (rt, v)) s.pc .load ∧ MemoryKept s t) ∧
    ∀ s, s.mem.len ≤ (wordIndex s rs imm).toNat → ∃ t, exec (.lw rs rt imm) s = .next t ∧
      Faulted s t { kind := .oobLoad, addr := s.ir, word := some (iFormat 0x23#6 rs rt imm), ea := some (wordIndex s rs imm) } ∧
      ∀ r, readReg t r = readReg s r

/-- R159, R162: sw replaces the word at `ea` by `x[rt]` when `ea` is in bounds, leaves every other word, and writes no register; else it
raises OOB_STORE with memory unchanged. The fault clause is R202's row 6 and R203's: the record's fields are D24's, that no counter changes is
D29's, and that the record's word is built again from the fields is this model's inference (log 21). (What R162 says of memory after the
fatal error is stated here only: R203 warns that no other claim may rely on it.) -/
def Obligations.SwStoresOrFaults : Prop :=
  ∀ (rs rt : RegIdx) (imm : BitVec 16),
    decode (iFormat 0x2B#6 rs rt imm) = .instr (.sw rs rt imm) ∧
    (∀ s, (wordIndex s rs imm).toNat < s.mem.len → ∃ t, exec (.sw rs rt imm) s = .next t ∧ Completes s t none s.pc .store ∧
      t.mem.read (wordIndex s rs imm) = some (readReg s rt) ∧ (∀ a, a ≠ wordIndex s rs imm → t.mem.read a = s.mem.read a) ∧
      t.mem.len = s.mem.len) ∧
    ∀ s, s.mem.len ≤ (wordIndex s rs imm).toNat → ∃ t, exec (.sw rs rt imm) s = .next t ∧
      Faulted s t { kind := .oobStore, addr := s.ir, word := some (iFormat 0x2B#6 rs rt imm), ea := some (wordIndex s rs imm) } ∧
      MemoryKept s t

/-! ### The step -/

/-- R101: the preamble, the fetch, and the three arms of dispatch. Of the state after a fatal error only what R203 allows is stated. -/
def Obligations.EngineStepFollowsTheSequence : Prop :=
  ∀ s : State,
    ((preamble s).regs[0] = 0#32 ∧ (∀ r, readReg (preamble s) r = readReg s r) ∧ (preamble s).lastWrite = none ∧
      (preamble s).ir = s.pc ∧ (preamble s).pc = BitVec.ofNat 32 (s.pc.toNat + 1) ∧ (preamble s).mem = s.mem ∧
      (preamble s).halted = s.halted ∧ (preamble s).stats = s.stats ∧ (preamble s).pipe = s.pipe ∧ (preamble s).mask = s.mask ∧
      (preamble s).fault = s.fault ∧ (preamble s).phase = s.phase ∧ (preamble s).params = s.params) ∧
    (s.mem.read s.pc = none → ∃ t, engineStep s = .next t ∧
      Faulted s t { kind := .oobFetch, addr := s.pc, word := none, ea := some s.pc }) ∧
    ∀ w, s.mem.read s.pc = some w →
      (∀ i, decode w = .instr i → engineStep s = exec i (preamble s)) ∧
      ∀ k, decode w = .malformed k → ∃ t, engineStep s = .next t ∧
        Faulted s t { kind := malformedKind k, addr := s.pc, word := some w, ea := none }

/-- The step of the model (log 1): when the word at `pc` decodes to an instruction, the step is `exec` of it on what the preamble left, with
the observer's work after it: `afterFirst` in phase READY, `afterSecond` in phase EXEC_B. -/
def Obligations.StepRunsDecodedInstruction : Prop :=
  ∀ (s : State) (w : Word) (i : Instr), s.halted = false → s.fault = none → s.mem.read s.pc = some w → decode w = .instr i →
    i.wellFormed = true ∧
    (s.phase = .ready → step s = onNext (afterFirst w) (exec i (preamble s))) ∧
    (s.phase = .execB → step s = onNext afterSecond (exec i (preamble s)))

/-- The placing of a word for the next step (log 20): from every state, the next engine step is `exec` of the instruction of that word, and
the machine is running, so that the step is that engine step with the observer's work. -/
def Obligations.PlacedWordIsWhatRunsNext : Prop :=
  ∀ (s : State) (w : Nat) (i : Instr), decodeTableWord 32 w = some i →
    engineStep (s.withFetchWord 32 w) = exec i (preamble (s.withFetchWord 32 w)) ∧
    running (s.withFetchWord 32 w) = true ∧ (s.withFetchWord 32 w).mem.read s.pc = some (wordOfTable 32 w) ∧
    (running s = true → s.pc.toNat < s.mem.len → ∃ m, s.mem.write s.pc (wordOfTable 32 w) = some m ∧ s.withFetchWord 32 w = setMem s m)

/-- R28, R37, R201, R182: no step happens in a machine that has halted or faulted, and elsewhere a step always has a next state (I4: never
stuck). How the model says that no step happens is its own choice: the step of a halted machine answers `Fault.halted` (log 3), that of a
faulted one `Fault.fatal` with its record (log 2). -/
def Obligations.StepsStartExactlyWhileRunning : Prop :=
  ∀ s : State,
    (s.halted = true → step s = .fault .halted) ∧
    (s.halted = false → ∀ r, s.fault = some r → step s = .fault (.fatal r)) ∧
    (s.halted = false → s.fault = none → ∃ t, step s = .next t)

/-- R106, R202 codes 1 to 3, R203: a malformed word stops the machine when a step fetches it, in either phase, with its record and no counter
changed (D24, D29). That the step after it answers `Fault.fatal` with the record is how this model says that no step happens (log 2). -/
def Obligations.MalformedWordIsFatalWhenExecuted : Prop :=
  ∀ (s : State) (w : Word) (k : Malformed), s.halted = false → s.fault = none → s.mem.read s.pc = some w → decode w = .malformed k →
    ∃ t, step s = .next t ∧ Faulted s t { kind := malformedKind k, addr := s.pc, word := some w, ea := none } ∧
      step t = .fault (.fatal { kind := malformedKind k, addr := s.pc, word := some w, ea := none })

/-- R171, R202 code 4, R203, R204: in phase READY a `pc` out of bounds is a fatal error of the first peek, with no counter changed. -/
def Obligations.PeekOutOfBoundsIsFatal : Prop :=
  ∀ s : State, s.halted = false → s.fault = none → s.phase = .ready → s.mem.len ≤ s.pc.toNat →
    ∃ t, step s = .next t ∧ Faulted s t { kind := .oobFetch, addr := s.pc, word := none, ea := some s.pc }

/-- R202, for an engine step: the list of fatal errors is complete, and each of its conditions raises its row's record. A step leaves a fault
record exactly when it fetched out of bounds, or fetched a malformed word, or executed an lw or sw out of bounds, and the record is that row's
(its kinds and fields are D24's, the word of an lw or sw is log 21's). -/
def Obligations.FatalErrorsAreExactlyTheListed : Prop :=
  ∀ s : State, s.fault = none → ∃ t, engineStep s = .next t ∧ ∀ r : FaultRecord,
    (t.fault = some r ↔
      (s.mem.read s.pc = none ∧ r = { kind := .oobFetch, addr := s.pc, word := none, ea := some s.pc }) ∨
      ∃ w, s.mem.read s.pc = some w ∧
        ((∃ k, decode w = .malformed k ∧ r = { kind := malformedKind k, addr := s.pc, word := some w, ea := none }) ∨
        (∃ rs rt imm, decode w = .instr (.lw rs rt imm) ∧ s.mem.len ≤ (wordIndex s rs imm).toNat ∧
          r = { kind := .oobLoad, addr := s.pc, word := some w, ea := some (wordIndex s rs imm) }) ∨
        ∃ rs rt imm, decode w = .instr (.sw rs rt imm) ∧ s.mem.len ≤ (wordIndex s rs imm).toNat ∧
          r = { kind := .oobStore, addr := s.pc, word := some w, ea := some (wordIndex s rs imm) }))

/-- R203: a cycle that ends in a fatal error adds to no pipeline counter and leaves `mask`; the faulting step adds to no statistics counter,
while a first step of the same cycle that completed keeps its counts (D29). -/
def Obligations.FatalErrorLeavesTheCounters : Prop :=
  ∀ s t : State, step s = .next t → t.fault ≠ none →
    t.pipe = s.pipe ∧ t.mask = s.mask ∧
    (t.stats = s.stats ∨ ∃ u, engineStep s = .next u ∧ u.fault = none ∧ peek u = none ∧ t.fault = some (fetchFault u.pc) ∧ t.stats = u.stats)

/-! ### Rules of the whole machine -/

/-- R22, R38, R51, R182, R183: every step keeps the word store's canonical form (log 7), register 0's storage at zero, and the shape of an ended
machine and of an open issue cycle (log 1). -/
def Obligations.EveryStepKeepsTheStateInvariant : Prop :=
  ∀ s t : State, StateInv s → step s = .next t → StateInv t

/-- Every launch with a store in canonical form meets the invariant, and so does `State.reset` (logs 5 and 6). -/
def Obligations.LaunchMeetsTheStateInvariant : Prop :=
  (∀ (p : Params) (m : Memory) (regInit : RegIdx → Word), m.wf → StateInv (State.launch p m regInit)) ∧
    (∀ image : List Word, image.length ≤ 2 ^ 31 → (Memory.ofImage image).wf) ∧ StateInv State.reset

/-- R34, R178, R179, R185 between any two steps: `instrCount` is the sum of the classes, every executed instruction is in exactly one issue cycle,
every cycle but a HALT alone is one stop or one double issue, `overlaps <= structuralStops`, and `mask` is one of its values. -/
def Obligations.EveryStepKeepsTheCounterIdentities : Prop :=
  ∀ s t : State, CounterInv s → step s = .next t → CounterInv t

/-- The counter identities hold at every launch, and so at `State.reset`. -/
def Obligations.LaunchMeetsTheCounterIdentities : Prop :=
  (∀ (p : Params) (m : Memory) (regInit : RegIdx → Word), CounterInv (State.launch p m regInit)) ∧ CounterInv State.reset

/-- R185 over runs, S counted: after k steps of the machine from a clean launch, with no fatal error, k is `instrCount` and the HALT step, and in
a machine that has halted `issueCycles + doubleIssues = S`, the stops and double issues are the cycles but a HALT alone, and `instrCount = S - 1`. -/
def Obligations.RunCountsEveryStep : Prop :=
  ∀ (k : Nat) (p : Params) (image : List Word) (s t : State), cleanLaunch p image s → stepN k s = .next t →
    t.fault = none →
    t.stats.instrCount + countIf t.halted = k ∧
    (t.halted = true →
      t.pipe.issueCycles + t.pipe.doubleIssues = k ∧
      t.pipe.controlStops + t.pipe.structuralStops + t.pipe.dataStops + t.pipe.doubleIssues + countIf (t.mask == 0x20#6) =
        t.pipe.issueCycles ∧
      t.pipe.overlaps ≤ t.pipe.structuralStops ∧ t.stats.instrCount + 1 = k)

/-- R33, R35: no counter is ever decreased or reset, and a step adds at most 1 to each; no instruction changes a pipeline counter or the mask. -/
def Obligations.CountersOnlyGrow : Prop :=
  (∀ (i : Instr) (s t : State), exec i s = .next t → t.pipe = s.pipe ∧ t.mask = s.mask) ∧
  ∀ s t : State, step s = .next t →
    (∀ f ∈ [PipelineCounters.issueCycles, PipelineCounters.doubleIssues, PipelineCounters.controlStops, PipelineCounters.structuralStops,
      PipelineCounters.dataStops, PipelineCounters.overlaps], f s.pipe ≤ f t.pipe ∧ f t.pipe ≤ f s.pipe + 1) ∧
    ∀ f ∈ [StatCounters.instrCount, StatCounters.aluCount, StatCounters.loadCount, StatCounters.storeCount, StatCounters.jumpCount,
      StatCounters.jalCount, StatCounters.branchTakenCount, StatCounters.branchUntakenCount], f s.stats ≤ f t.stats ∧ f t.stats ≤ f s.stats + 1

/-- R38: MEMLEN never changes during a run, nor does which addresses are in bounds (R51); nor do the launch parameters (R11), which this model
holds in State (log 8). -/
def Obligations.StepKeepsMemLenAndParameters : Prop :=
  ∀ s t : State, step s = .next t →
    t.mem.len = s.mem.len ∧ t.params = s.params ∧ ∀ a, (t.mem.read a).isSome = (s.mem.read a).isSome

/-- R54: no instruction but sw changes a word, and a step changes at most the one word at its sw's effective address. -/
def Obligations.OnlyStoresChangeMemory : Prop :=
  (∀ (i : Instr) (s t : State), (∀ rs rt imm, i ≠ .sw rs rt imm) → exec i s = .next t → t.mem = s.mem) ∧
  ∀ (s t : State) (a : Word), step s = .next t → t.mem.read a ≠ s.mem.read a →
    ∃ w rs rt imm, s.mem.read s.pc = some w ∧ decode w = .instr (.sw rs rt imm) ∧ a = wordIndex s rs imm

/-- R27: an engine step that completes an instruction leaves `ir` at the fetched index and `pc` at `ir + 1`, unless the instruction is a
control transfer: then `pc` is the jump's target, or for a branch either of the two (R140, D4 to D6). After a fatal error nothing is claimed
of `pc` and `ir` (R203). -/
def Obligations.OnlyTransfersRedirectPc : Prop :=
  ∀ (s t : State) (w : Word) (i : Instr), s.fault = none → s.mem.read s.pc = some w → decode w = .instr i → engineStep s = .next t →
    t.fault = none →
    t.ir = s.pc ∧ (isTransfer i = false → t.pc = t.ir + 1#32) ∧
    match i with
    | .j target | .jal target => t.pc = BitVec.ofNat 32 target.toNat
    | .jr rs _ _ _ | .jalr rs _ _ _ => t.pc = readReg s rs
    | .beq _ _ imm | .bne _ _ imm | .blez _ _ imm | .bgtz _ _ imm =>
      t.pc = t.ir + 1#32 ∨ t.pc = BitVec.ofInt 32 (t.ir.toNat + s.params.branchBase.val + imm.toInt)
    | _ => isTransfer i = false

/-- R30, R108: after an engine step with no fatal error, `lastWrite` is none or names the one register that the step may have changed. -/
def Obligations.LastWriteNamesTheWrittenRegister : Prop :=
  ∀ s t : State, s.fault = none → engineStep s = .next t → t.fault = none →
    ∀ r, readReg t r ≠ readReg s r → t.lastWrite = some r

/-- R28: `halted` is false from reset, becomes true exactly when the executed word is the HALT sentinel, and once true no step happens. That
the step of a halted machine then answers `Fault.halted` is how this model says so (log 3). -/
def Obligations.HaltedIsSetByTheHaltWordAlone : Prop :=
  (∀ (p : Params) (m : Memory) (regInit : RegIdx → Word), (State.launch p m regInit).halted = false) ∧
  (∀ s t : State, step s = .next t → (t.halted = true ↔ s.mem.read s.pc = some 0x00000000#32)) ∧
  ∀ s : State, s.halted = true → step s = .fault .halted

/-! ### The observer (45_dual_issue_observer.md) -/

/-- R173, R178, R180: an issue cycle whose first instruction is a control transfer executes it alone and is a control stop, taken or not; one
whose first instruction is HALT adds to `issueCycles` alone (D16) and is HALT_ALONE. The masks are D19's. -/
def Obligations.ControlTransferOrHaltEndsTheCycle : Prop :=
  ∀ (s : State) (a : Word) (i : Instr), s.halted = false → s.fault = none → s.phase = .ready → peek s = some a → decode a = .instr i →
    (isTransfer i = true → ∃ t, step s = .next t ∧ t.mask = 0x02#6 ∧ Tallied s.pipe t.pipe 0 1 0 0 0 ∧ t.phase = .ready ∧ t.fault = none) ∧
    (i = .halt → ∃ t, step s = .next t ∧ t.mask = 0x20#6 ∧ Tallied s.pipe t.pipe 0 0 0 0 0 ∧ t.phase = .ready ∧ t.halted = true ∧
      t.stats = s.stats)

/-- R174: two memory instructions, or two multiplies, are a structural stop; it is an overlap too when a data dependency holds as well. What
a malformed multiply reads is the model's choice between R176 and D15 (log 25). -/
def Obligations.SharedUnitIsAStructuralStop : Prop :=
  ∀ (s u : State) (a b : Word), PairAt s u a b → SharesUnit a b →
    (DataDependent u b → ∃ t, step s = .next t ∧ SameEngine t u ∧ t.mask = 0x14#6 ∧ Tallied s.pipe t.pipe 0 0 1 0 1 ∧ t.phase = .ready) ∧
    (¬DataDependent u b → ∃ t, step s = .next t ∧ SameEngine t u ∧ t.mask = 0x04#6 ∧ Tallied s.pipe t.pipe 0 0 1 0 0 ∧ t.phase = .ready)

/-- R175: otherwise, when the first instruction wrote a register that the second reads, it is a data-dependency stop. What a
malformed multiply reads is the model's choice between R176 and D15 (log 25). -/
def Obligations.DependenceIsADataStop : Prop :=
  ∀ (s u : State) (a b : Word), PairAt s u a b → ¬SharesUnit a b → DataDependent u b →
    ∃ t, step s = .next t ∧ SameEngine t u ∧ t.mask = 0x08#6 ∧ Tallied s.pipe t.pipe 0 0 0 1 0 ∧ t.phase = .ready

/-- R177: otherwise the second instruction is issued in the same cycle: the next step executes it, as the bare engine step does from where the
first left the engine, and when it raises no fatal error the cycle is a double issue, and the cycle ends; when it raises one, the step leaves
that record and tallies nothing (R203, D29). Between the two steps the cycle is open (log 1). The mask is D19's, what a malformed
multiply reads is the model's choice (log 25). -/
def Obligations.IndependentPairIsDualIssued : Prop :=
  ∀ (s u : State) (a b : Word), PairAt s u a b → ¬SharesUnit a b → ¬DataDependent u b →
    ∃ t v w, step s = .next t ∧ SameEngine t u ∧ t.pipe = s.pipe ∧ t.mask = s.mask ∧ t.phase = .execB ∧
      engineStep u = .next w ∧ step t = .next v ∧ v.fault = w.fault ∧
      (v.fault = none → SameEngine v w ∧ v.mask = 0x01#6 ∧ Tallied s.pipe v.pipe 1 0 0 0 0 ∧ v.phase = .ready) ∧
      (v.fault ≠ none → v.stats = u.stats ∧ v.pipe = s.pipe ∧ v.mask = s.mask)

/-- R176: the read-set table for the word of every instruction, a word under opcode 0x1C with another funct, and every other malformed word.
The rows of HALT, of the other malformed words, of blez, bgtz, lui and the shifts' extra read are the spec's choices (D12 to D15), for every
parameter value. That a malformed word under opcode 0x1C reads rs and rt is R176's table against D15 and I9: the model's choice (log 25). -/
def Obligations.ReadSetsAreTheTables : Prop :=
  (∀ (p : Params) (i : Instr), i.wellFormed = true → ∀ r, r ∈ reads p (encode i) ↔ r ∈ readSet p i) ∧
  ∀ (p : Params) (w : Word) (k : Malformed), decode w = .malformed k →
    ∀ r, r ∈ reads p w ↔ opcodeField w = 0x1C#6 ∧ (r = rsField w ∨ r = rtField w)

/-- R170: the atomic issue cycle `scheduleCycle`, written as the rule's pseudocode, is one step of the model, or two when the first leaves the
cycle open (log 1). -/
def Obligations.IssueCycleIsOneOrTwoSteps : Prop :=
  ∀ s : State, s.halted = false → s.fault = none → s.phase = .ready →
    scheduleCycle s =
      match step s with
      | .next t => if t.phase = .execB then step t else .next t
      | .fault e => .fault e
      | .refused e => .refused e

/-- R184 for one step: without a fatal error a step changes the engine's state exactly as the bare engine step does; with one, the bare engine
raises the same record at this step or, where the second peek faulted, at its next. -/
def Obligations.ObserverPreservesTheEngineStep : Prop :=
  ∀ s t : State, step s = .next t →
    (t.fault = none → ∃ u, engineStep s = .next u ∧ SameEngine t u) ∧
    ∀ r, t.fault = some r →
      (∃ u, engineStep s = .next u ∧ u.fault = some r) ∨
      ∃ u v, engineStep s = .next u ∧ u.fault = none ∧ engineStep u = .next v ∧ v.fault = some r

/-- R184 for runs, from every state between two cycles: a run of issue cycles that finishes has a plain run of engine steps that finishes in the
same way, and a plain run that finishes has a run of issue cycles that finishes in the same way, under no more fuel. So one run is a hang
exactly when the other is. -/
def Obligations.ObserverPreservesProgramSemantics : Prop :=
  ∀ s : State, s.phase = .ready →
    (∀ (fuel : Nat) (t : State), runCycles fuel s = .finished t → ∃ (n : Nat) (u : State), runSteps n s = .finished u ∧ SameEnd t u) ∧
    ∀ (n : Nat) (u : State), runSteps n s = .finished u → ∃ t : State, runCycles n s = .finished t ∧ SameEnd t u
end

