-- ==== Sys2Proof/Laws/Encoding.lean ====
section
/-! SUPPORT. The fields of an encoded word, and a word put together from its fields (30_encoding.md R71 to R74). -/

namespace Sys2Proof

/-! ### The bits of each format -/

theorem rFormat_bit (opcode funct : BitVec 6) (rs rt rd : RegIdx) (shamt : BitVec 5) (k : Nat) :
    (rFormat opcode rs rt rd shamt funct).getLsbD k =
      if k < 6 then funct.getLsbD k
      else if k < 11 then shamt.getLsbD (k - 6)
      else if k < 16 then rd.bits.getLsbD (k - 11)
      else if k < 21 then rt.bits.getLsbD (k - 16)
      else if k < 26 then rs.bits.getLsbD (k - 21)
      else opcode.getLsbD (k - 26) := by
  change (opcode ++ rs.bits ++ rt.bits ++ rd.bits ++ shamt ++ funct).getLsbD k = _
  simp only [BitVec.getLsbD_append, Nat.sub_sub]
  split_ifs <;> first | rfl | omega

theorem iFormat_bit (opcode : BitVec 6) (rs rt : RegIdx) (imm : BitVec 16) (k : Nat) :
    (iFormat opcode rs rt imm).getLsbD k =
      if k < 16 then imm.getLsbD k
      else if k < 21 then rt.bits.getLsbD (k - 16)
      else if k < 26 then rs.bits.getLsbD (k - 21)
      else opcode.getLsbD (k - 26) := by
  change (opcode ++ rs.bits ++ rt.bits ++ imm).getLsbD k = _
  simp only [BitVec.getLsbD_append, Nat.sub_sub]
  split_ifs <;> first | rfl | omega

theorem jFormat_bit (opcode : BitVec 6) (target : BitVec 26) (k : Nat) :
    (jFormat opcode target).getLsbD k = if k < 26 then target.getLsbD k else opcode.getLsbD (k - 26) := by
  change (opcode ++ target).getLsbD k = _
  rw [BitVec.getLsbD_append]

/-- A field is what its bits are. -/
theorem extract_eq_of_bits {n : Nat} (w : Word) (start : Nat) (x : BitVec n) (h : ∀ i < n, w.getLsbD (start + i) = x.getLsbD i) :
    w.extractLsb' start n = x := by
  apply BitVec.eq_of_getLsbD_eq
  intro i hi
  rw [BitVec.getLsbD_extractLsb', h i hi]
  simp [hi]

/-- A bit of a field is the word's bit. -/
theorem extract_bit {w : Word} {start n k : Nat} (hlow : start ≤ k) (hhigh : k < start + n) :
    (w.extractLsb' start n).getLsbD (k - start) = w.getLsbD k := by
  rw [BitVec.getLsbD_extractLsb', Nat.add_sub_cancel' hlow]
  simp [show k - start < n by omega]

/-! ### The fields of a word of each format -/

section Fields
variable (opcode funct : BitVec 6) (rs rt rd : RegIdx) (shamt : BitVec 5) (imm : BitVec 16) (target : BitVec 26)

@[simp] theorem opcodeField_rFormat : opcodeField (rFormat opcode rs rt rd shamt funct) = opcode := by
  refine extract_eq_of_bits _ _ _ fun i hi => ?_
  rw [rFormat_bit]; split_ifs <;> first | omega | simp

@[simp] theorem rsField_rFormat : rsField (rFormat opcode rs rt rd shamt funct) = rs := by
  refine congrArg BitVec.toFin (extract_eq_of_bits _ _ rs.bits fun i hi => ?_)
  rw [rFormat_bit]; split_ifs <;> first | omega | simp

@[simp] theorem rtField_rFormat : rtField (rFormat opcode rs rt rd shamt funct) = rt := by
  refine congrArg BitVec.toFin (extract_eq_of_bits _ _ rt.bits fun i hi => ?_)
  rw [rFormat_bit]; split_ifs <;> first | omega | simp

@[simp] theorem rdField_rFormat : rdField (rFormat opcode rs rt rd shamt funct) = rd := by
  refine congrArg BitVec.toFin (extract_eq_of_bits _ _ rd.bits fun i hi => ?_)
  rw [rFormat_bit]; split_ifs <;> first | omega | simp

@[simp] theorem shamtField_rFormat : shamtField (rFormat opcode rs rt rd shamt funct) = shamt := by
  refine extract_eq_of_bits _ _ _ fun i hi => ?_
  rw [rFormat_bit]; split_ifs <;> first | omega | simp

@[simp] theorem functField_rFormat : functField (rFormat opcode rs rt rd shamt funct) = funct := by
  refine extract_eq_of_bits _ _ _ fun i hi => ?_
  rw [rFormat_bit]; split_ifs <;> first | omega | simp

@[simp] theorem opcodeField_iFormat : opcodeField (iFormat opcode rs rt imm) = opcode := by
  refine extract_eq_of_bits _ _ _ fun i hi => ?_
  rw [iFormat_bit]; split_ifs <;> first | omega | simp

@[simp] theorem rsField_iFormat : rsField (iFormat opcode rs rt imm) = rs := by
  refine congrArg BitVec.toFin (extract_eq_of_bits _ _ rs.bits fun i hi => ?_)
  rw [iFormat_bit]; split_ifs <;> first | omega | simp

@[simp] theorem rtField_iFormat : rtField (iFormat opcode rs rt imm) = rt := by
  refine congrArg BitVec.toFin (extract_eq_of_bits _ _ rt.bits fun i hi => ?_)
  rw [iFormat_bit]; split_ifs <;> first | omega | simp

@[simp] theorem immField_iFormat : immField (iFormat opcode rs rt imm) = imm := by
  refine extract_eq_of_bits _ _ _ fun i hi => ?_
  rw [iFormat_bit]; split_ifs <;> first | omega | simp

@[simp] theorem opcodeField_jFormat : opcodeField (jFormat opcode target) = opcode := by
  refine extract_eq_of_bits _ _ _ fun i hi => ?_
  rw [jFormat_bit]; split_ifs <;> first | omega | simp

@[simp] theorem targetField_jFormat : targetField (jFormat opcode target) = target := by
  refine extract_eq_of_bits _ _ _ fun i hi => ?_
  rw [jFormat_bit]; split_ifs <;> first | omega | simp

end Fields

/-! ### A word is its fields, in each format (R74: all three views exist for every word) -/

theorem rFormat_fields (w : Word) :
    rFormat (opcodeField w) (rsField w) (rtField w) (rdField w) (shamtField w) (functField w) = w := by
  apply BitVec.eq_of_getLsbD_eq
  intro k hk
  rw [rFormat_bit]
  split_ifs
  · exact extract_bit (start := 0) (by omega) (by omega)
  · exact extract_bit (by omega) (by omega)
  · exact extract_bit (by omega) (by omega)
  · exact extract_bit (by omega) (by omega)
  · exact extract_bit (by omega) (by omega)
  · exact extract_bit (by omega) (by omega)

theorem iFormat_fields (w : Word) : iFormat (opcodeField w) (rsField w) (rtField w) (immField w) = w := by
  apply BitVec.eq_of_getLsbD_eq
  intro k hk
  rw [iFormat_bit]
  split_ifs
  · exact extract_bit (start := 0) (by omega) (by omega)
  · exact extract_bit (by omega) (by omega)
  · exact extract_bit (by omega) (by omega)
  · exact extract_bit (by omega) (by omega)

theorem jFormat_fields (w : Word) : jFormat (opcodeField w) (targetField w) = w := by
  apply BitVec.eq_of_getLsbD_eq
  intro k hk
  rw [jFormat_bit]
  split_ifs
  · exact extract_bit (start := 0) (by omega) (by omega)
  · exact extract_bit (by omega) (by omega)

/-! ### The fields of the HALT word -/

@[simp] theorem opcodeField_haltWord : opcodeField haltWord = specialOpcode := by decide
@[simp] theorem functField_haltWord : functField haltWord = 0x00#6 := by decide

end Sys2Proof
end

