-- ==== Sys2Proof/Laws/PerInstr.lean ====
section
/-! SUPPORT. Statements made per instruction: one lemma per constructor of `Instr`. -/

namespace Sys2Proof.Laws

/-- The selectors of an instruction's word are the table's (R78, R79): its opcode field is `opcodeOf`, and where dispatch checks funct, its
funct field is `functOf`. -/
def Selectors.Statement (i : Instr) : Prop :=
  opcodeField (encode i) = opcodeOf i.op ∧ ∀ f, functOf i.op = some f → functField (encode i) = f

theorem Selectors.halt : Selectors.Statement .halt := ⟨opcodeField_haltWord, fun _ h => nomatch h⟩
theorem Selectors.sll (rs rt rd : RegIdx) (shamt : BitVec 5) : Selectors.Statement (.sll rs rt rd shamt) :=
  ⟨opcodeField_rFormat .., fun _ h => (functField_rFormat ..).trans (Option.some.inj h)⟩
theorem Selectors.srl (rs rt rd : RegIdx) (shamt : BitVec 5) : Selectors.Statement (.srl rs rt rd shamt) :=
  ⟨opcodeField_rFormat .., fun _ h => (functField_rFormat ..).trans (Option.some.inj h)⟩
theorem Selectors.sra (rs rt rd : RegIdx) (shamt : BitVec 5) : Selectors.Statement (.sra rs rt rd shamt) :=
  ⟨opcodeField_rFormat .., fun _ h => (functField_rFormat ..).trans (Option.some.inj h)⟩
theorem Selectors.jr (rs rt rd : RegIdx) (shamt : BitVec 5) : Selectors.Statement (.jr rs rt rd shamt) :=
  ⟨opcodeField_rFormat .., fun _ h => (functField_rFormat ..).trans (Option.some.inj h)⟩
theorem Selectors.jalr (rs rt rd : RegIdx) (shamt : BitVec 5) : Selectors.Statement (.jalr rs rt rd shamt) :=
  ⟨opcodeField_rFormat .., fun _ h => (functField_rFormat ..).trans (Option.some.inj h)⟩
theorem Selectors.addu (rs rt rd : RegIdx) (shamt : BitVec 5) : Selectors.Statement (.addu rs rt rd shamt) :=
  ⟨opcodeField_rFormat .., fun _ h => (functField_rFormat ..).trans (Option.some.inj h)⟩
theorem Selectors.subu (rs rt rd : RegIdx) (shamt : BitVec 5) : Selectors.Statement (.subu rs rt rd shamt) :=
  ⟨opcodeField_rFormat .., fun _ h => (functField_rFormat ..).trans (Option.some.inj h)⟩
theorem Selectors.and (rs rt rd : RegIdx) (shamt : BitVec 5) : Selectors.Statement (.and rs rt rd shamt) :=
  ⟨opcodeField_rFormat .., fun _ h => (functField_rFormat ..).trans (Option.some.inj h)⟩
theorem Selectors.or (rs rt rd : RegIdx) (shamt : BitVec 5) : Selectors.Statement (.or rs rt rd shamt) :=
  ⟨opcodeField_rFormat .., fun _ h => (functField_rFormat ..).trans (Option.some.inj h)⟩
theorem Selectors.xor (rs rt rd : RegIdx) (shamt : BitVec 5) : Selectors.Statement (.xor rs rt rd shamt) :=
  ⟨opcodeField_rFormat .., fun _ h => (functField_rFormat ..).trans (Option.some.inj h)⟩
theorem Selectors.nor (rs rt rd : RegIdx) (shamt : BitVec 5) : Selectors.Statement (.nor rs rt rd shamt) :=
  ⟨opcodeField_rFormat .., fun _ h => (functField_rFormat ..).trans (Option.some.inj h)⟩
theorem Selectors.mul (rs rt rd : RegIdx) (shamt : BitVec 5) : Selectors.Statement (.mul rs rt rd shamt) :=
  ⟨opcodeField_rFormat .., fun _ h => (functField_rFormat ..).trans (Option.some.inj h)⟩
theorem Selectors.j (target : BitVec 26) : Selectors.Statement (.j target) := ⟨opcodeField_jFormat .., fun _ h => nomatch h⟩
theorem Selectors.jal (target : BitVec 26) : Selectors.Statement (.jal target) := ⟨opcodeField_jFormat .., fun _ h => nomatch h⟩
theorem Selectors.beq (rs rt : RegIdx) (imm : BitVec 16) : Selectors.Statement (.beq rs rt imm) :=
  ⟨opcodeField_iFormat .., fun _ h => nomatch h⟩
theorem Selectors.bne (rs rt : RegIdx) (imm : BitVec 16) : Selectors.Statement (.bne rs rt imm) :=
  ⟨opcodeField_iFormat .., fun _ h => nomatch h⟩
theorem Selectors.blez (rs rt : RegIdx) (imm : BitVec 16) : Selectors.Statement (.blez rs rt imm) :=
  ⟨opcodeField_iFormat .., fun _ h => nomatch h⟩
theorem Selectors.bgtz (rs rt : RegIdx) (imm : BitVec 16) : Selectors.Statement (.bgtz rs rt imm) :=
  ⟨opcodeField_iFormat .., fun _ h => nomatch h⟩
theorem Selectors.addiu (rs rt : RegIdx) (imm : BitVec 16) : Selectors.Statement (.addiu rs rt imm) :=
  ⟨opcodeField_iFormat .., fun _ h => nomatch h⟩
theorem Selectors.slti (rs rt : RegIdx) (imm : BitVec 16) : Selectors.Statement (.slti rs rt imm) :=
  ⟨opcodeField_iFormat .., fun _ h => nomatch h⟩
theorem Selectors.xori (rs rt : RegIdx) (imm : BitVec 16) : Selectors.Statement (.xori rs rt imm) :=
  ⟨opcodeField_iFormat .., fun _ h => nomatch h⟩
theorem Selectors.lui (rs rt : RegIdx) (imm : BitVec 16) : Selectors.Statement (.lui rs rt imm) :=
  ⟨opcodeField_iFormat .., fun _ h => nomatch h⟩
theorem Selectors.lw (rs rt : RegIdx) (imm : BitVec 16) : Selectors.Statement (.lw rs rt imm) :=
  ⟨opcodeField_iFormat .., fun _ h => nomatch h⟩
theorem Selectors.sw (rs rt : RegIdx) (imm : BitVec 16) : Selectors.Statement (.sw rs rt imm) :=
  ⟨opcodeField_iFormat .., fun _ h => nomatch h⟩

end Sys2Proof.Laws
end

