-- ==== Sys2Proof/Laws/Decode.lean ====
section
/-! SUPPORT. The decoder said once: which words dispatch gives which name (30_encoding.md R81), and that a name's fields put its word together
again. -/

namespace Sys2Proof

/-- The selectors of a word are those that the table gives `o` (R78, R79). -/
def Selects (o : Op) (w : Word) : Prop := opcodeField w = opcodeOf o ∧ ∀ f, functOf o = some f → functField w = f

theorem find_special {f : BitVec 6} {o : Op} (h : specialOps.find? (fun o => functOf o == some f) = some o) :
    o ∈ specialOps ∧ functOf o = some f :=
  ⟨List.mem_of_find?_eq_some h, by simpa using List.find?_some h⟩

theorem find_primary {f : BitVec 6} {o : Op} (h : primaryOps.find? (fun o => opcodeOf o == f) = some o) :
    o ∈ primaryOps ∧ opcodeOf o = f :=
  ⟨List.mem_of_find?_eq_some h, by simpa using List.find?_some h⟩

theorem special_opcode {o : Op} (h : o ∈ specialOps) : o ≠ .halt ∧ opcodeOf o = specialOpcode := by
  revert o; decide

theorem primary_facts {o : Op} (h : o ∈ primaryOps) : o ≠ .halt ∧ functOf o = none := by
  revert o; decide

/-- A word that dispatch names is the HALT word, or a word with the name's selectors. -/
theorem selects_of_opOfWord {w : Word} {o : Op} (h : opOfWord w = .op o) :
    (o = .halt ∧ w = haltWord) ∨ (o ≠ .halt ∧ w ≠ haltWord ∧ Selects o w) := by
  unfold opOfWord at h
  split at h
  · rename_i hw
    cases h
    exact Or.inl ⟨rfl, hw⟩
  · rename_i hw
    refine Or.inr ?_
    split at h
    · rename_i hop
      split at h
      · rename_i o' hfind
        cases h
        obtain ⟨hmem, hf⟩ := find_special hfind
        obtain ⟨hne, ho⟩ := special_opcode hmem
        exact ⟨hne, hw, hop.trans ho.symm, fun f e => Option.some.inj (hf.symm.trans e)⟩
      · cases h
    · split at h
      · rename_i hop
        split at h
        · rename_i hf
          cases h
          exact ⟨by decide, hw, hop, fun f e => Option.some.inj (hf.symm.trans e)⟩
        · cases h
      · split at h
        · rename_i o' hfind
          cases h
          obtain ⟨hmem, ho⟩ := find_primary hfind
          obtain ⟨hne, hnone⟩ := primary_facts hmem
          exact ⟨hne, hw, ho.symm, fun f e => by rw [hnone] at e; cases e⟩
        · cases h

/-- A word other than HALT with a name's selectors is given that name. -/
theorem opOfWord_of_selects {w : Word} {o : Op} (hne : o ≠ .halt) (hw : w ≠ haltWord) (h : Selects o w) : opOfWord w = .op o := by
  obtain ⟨hop, hf⟩ := h
  unfold opOfWord
  rw [if_neg hw, hop]
  cases o with
  | halt => exact absurd rfl hne
  | j => rfl
  | jal => rfl
  | beq => rfl
  | bne => rfl
  | blez => rfl
  | bgtz => rfl
  | addiu => rfl
  | slti => rfl
  | xori => rfl
  | lui => rfl
  | lw => rfl
  | sw => rfl
  | mul => rw [hf _ rfl]; rfl
  | _ => rw [hf _ rfl]; rfl

/-- The word of an instruction name and its fields is the word they were taken from. -/
theorem encode_instrOfFields {w : Word} {o : Op} (hne : o ≠ .halt) (h : Selects o w) : encode (instrOfFields o w) = w := by
  obtain ⟨hop, hf⟩ := h
  have hR : ∀ f, functOf o = some f → rWord o (rsField w) (rtField w) (rdField w) (shamtField w) = w := fun f e => by
    rw [rWord, e, ← hop, Option.getD_some, ← hf f e]
    exact rFormat_fields w
  have hI : iWord o (rsField w) (rtField w) (immField w) = w := by rw [iWord, ← hop]; exact iFormat_fields w
  have hJ : jWord o (targetField w) = w := by rw [jWord, ← hop]; exact jFormat_fields w
  cases o with
  | halt => exact absurd rfl hne
  | j => exact hJ
  | jal => exact hJ
  | beq => exact hI
  | bne => exact hI
  | blez => exact hI
  | bgtz => exact hI
  | addiu => exact hI
  | slti => exact hI
  | xori => exact hI
  | lui => exact hI
  | lw => exact hI
  | sw => exact hI
  | _ => exact hR _ rfl

/-- The fields of an instruction's word are the instruction's. -/
theorem instrOfFields_encode (i : Instr) : instrOfFields i.op (encode i) = i := by
  cases i <;> simp [Instr.op, instrOfFields, encode, rWord, iWord, jWord]

theorem op_instrOfFields (o : Op) (w : Word) : (instrOfFields o w).op = o := by
  cases o <;> rfl

/-- An instruction's word has its selectors. -/
theorem selects_encode (i : Instr) : Selects i.op (encode i) := by
  cases i with
  | halt => exact Laws.Selectors.halt
  | sll _ _ _ _ => exact Laws.Selectors.sll ..
  | srl _ _ _ _ => exact Laws.Selectors.srl ..
  | sra _ _ _ _ => exact Laws.Selectors.sra ..
  | jr _ _ _ _ => exact Laws.Selectors.jr ..
  | jalr _ _ _ _ => exact Laws.Selectors.jalr ..
  | addu _ _ _ _ => exact Laws.Selectors.addu ..
  | subu _ _ _ _ => exact Laws.Selectors.subu ..
  | and _ _ _ _ => exact Laws.Selectors.and ..
  | or _ _ _ _ => exact Laws.Selectors.or ..
  | xor _ _ _ _ => exact Laws.Selectors.xor ..
  | nor _ _ _ _ => exact Laws.Selectors.nor ..
  | mul _ _ _ _ => exact Laws.Selectors.mul ..
  | j _ => exact Laws.Selectors.j ..
  | jal _ => exact Laws.Selectors.jal ..
  | beq _ _ _ => exact Laws.Selectors.beq ..
  | bne _ _ _ => exact Laws.Selectors.bne ..
  | blez _ _ _ => exact Laws.Selectors.blez ..
  | bgtz _ _ _ => exact Laws.Selectors.bgtz ..
  | addiu _ _ _ => exact Laws.Selectors.addiu ..
  | slti _ _ _ => exact Laws.Selectors.slti ..
  | xori _ _ _ => exact Laws.Selectors.xori ..
  | lui _ _ _ => exact Laws.Selectors.lui ..
  | lw _ _ _ => exact Laws.Selectors.lw ..
  | sw _ _ _ => exact Laws.Selectors.sw ..

/-- The HALT word has the selectors of HALT and of sll alone. -/
theorem ne_haltWord_of_selects {o : Op} {w : Word} (h : Selects o w) (hhalt : o ≠ .halt) (hsll : o ≠ .sll) : w ≠ haltWord := by
  rintro rfl
  obtain ⟨hop, hf⟩ := h
  cases o <;> simp [opcodeOf, functOf, specialOpcode] at hop hf hhalt hsll

/-- A malformed word, by kind (R81, R86). -/
theorem malformed_cases {w : Word} {k : Malformed} (h : opOfWord w = .malformed k) :
    w ≠ haltWord ∧
      ((k = .unknownFunct ∧ opcodeField w = specialOpcode ∧ ∀ o ∈ specialOps, functOf o ≠ some (functField w)) ∨
       (k = .badMulFunct ∧ opcodeField w = opcodeOf .mul ∧ functOf .mul ≠ some (functField w)) ∨
       (k = .unknownOpcode ∧ opcodeField w ≠ specialOpcode ∧ opcodeField w ≠ opcodeOf .mul ∧
        ∀ o ∈ primaryOps, opcodeOf o ≠ opcodeField w)) := by
  unfold opOfWord at h
  split at h
  · cases h
  · rename_i hw
    refine ⟨hw, ?_⟩
    split at h
    · rename_i hop
      split at h
      · cases h
      · rename_i hfind
        cases h
        exact Or.inl ⟨rfl, hop, by simpa using hfind⟩
    · rename_i hop
      split at h
      · rename_i hmul
        split at h
        · cases h
        · rename_i hf
          cases h
          exact Or.inr (Or.inl ⟨rfl, hmul, hf⟩)
      · rename_i hmul
        split at h
        · cases h
        · rename_i hfind
          cases h
          exact Or.inr (Or.inr ⟨rfl, hop, hmul, by simpa using hfind⟩)

end Sys2Proof
end

