-- ==== Sys2Proof/Laws/Memory.lean ====
section
/-! SUPPORT. The laws of the word store: a read after a write, the canonical form kept by every operation, and what a launch's image reads
as. -/

namespace Sys2Proof.Machine

/-! ### Cells -/

theorem lookupCell_eraseCell (cs : List (Nat × Word)) (k j : Nat) :
    lookupCell (eraseCell cs k) j = if j = k then Memory.unlisted else lookupCell cs j := by
  induction cs with
  | nil => simp [eraseCell, lookupCell]
  | cons c cs ih =>
    by_cases hk : c.1 = k
    · simp only [eraseCell, hk, if_true, ih, lookupCell]
      by_cases hj : j = k
      · simp [hj]
      · simp [hj, Ne.symm hj]
    · simp only [eraseCell, hk, if_false, lookupCell]
      by_cases hj : c.1 = j
      · simp [← hj, hk]
      · simp only [hj, if_false, ih]

theorem lookupCell_insertCell {cs : List (Nat × Word)} {k : Nat} (v : Word) (j : Nat)
    (hk : lookupCell cs k = Memory.unlisted) (hfree : ∀ c ∈ cs, c.1 ≠ k) :
    lookupCell (insertCell cs k v) j = if j = k then v else lookupCell cs j := by
  induction cs with
  | nil =>
    by_cases hj : j = k
    · simp [insertCell, lookupCell, hj]
    · simp [insertCell, lookupCell, hj, Ne.symm hj]
  | cons c cs ih =>
    have hc : c.1 ≠ k := hfree c (List.mem_cons_self ..)
    by_cases hlt : k < c.1
    · by_cases hj : j = k
      · simp [insertCell, lookupCell, hlt, hj]
      · simp [insertCell, lookupCell, hlt, hj, Ne.symm hj]
    · simp only [insertCell, hlt, if_false, lookupCell]
      by_cases hj : c.1 = j
      · simp [← hj, hc]
      · simp only [hj, if_false]
        exact ih (by simpa [lookupCell, hc] using hk) (fun d hd => hfree d (List.mem_cons_of_mem _ hd))

theorem eraseCell_subset {cs : List (Nat × Word)} {k : Nat} {c : Nat × Word} (h : c ∈ eraseCell cs k) : c ∈ cs ∧ c.1 ≠ k := by
  induction cs with
  | nil => simp [eraseCell] at h
  | cons d cs ih =>
    by_cases hd : d.1 = k
    · simp only [eraseCell, hd, if_true] at h
      exact ⟨List.mem_cons_of_mem _ (ih h).1, (ih h).2⟩
    · simp only [eraseCell, hd, if_false, List.mem_cons] at h
      rcases h with rfl | h
      · exact ⟨List.mem_cons_self .., hd⟩
      · exact ⟨List.mem_cons_of_mem _ (ih h).1, (ih h).2⟩

/-- One cell set: index `k` holds the word, every other index what it held. It holds of every list, canonical or not. -/
theorem lookupCell_setCell (cs : List (Nat × Word)) (k : Nat) (v : Word) (j : Nat) :
    lookupCell (setCell cs k v) j = if j = k then v else lookupCell cs j := by
  unfold setCell
  split
  · rename_i hv
    rw [lookupCell_eraseCell, hv]
  · rw [lookupCell_insertCell v j (by simp [lookupCell_eraseCell]) (fun c hc => (eraseCell_subset hc).2), lookupCell_eraseCell]
    split <;> rfl

theorem mem_insertCell {cs : List (Nat × Word)} {k : Nat} {v : Word} {c : Nat × Word} (h : c ∈ insertCell cs k v) :
    c = (k, v) ∨ c ∈ cs := by
  induction cs with
  | nil => exact Or.inl (by simpa [insertCell] using h)
  | cons d cs ih =>
    by_cases hlt : k < d.1
    · simpa [insertCell, hlt] using h
    · simp only [insertCell, hlt, if_false, List.mem_cons] at h
      rcases h with rfl | h
      · exact Or.inr (List.mem_cons_self ..)
      · rcases ih h with h | h
        · exact Or.inl h
        · exact Or.inr (List.mem_cons_of_mem _ h)

theorem eraseCell_pairwise {cs : List (Nat × Word)} (k : Nat) (h : cs.Pairwise (fun c d => c.1 < d.1)) :
    (eraseCell cs k).Pairwise (fun c d => c.1 < d.1) := by
  induction cs with
  | nil => exact h
  | cons c cs ih =>
    rw [List.pairwise_cons] at h
    by_cases hc : c.1 = k
    · simpa [eraseCell, hc] using ih h.2
    · simp only [eraseCell, hc, if_false, List.pairwise_cons]
      exact ⟨fun d hd => h.1 d (eraseCell_subset hd).1, ih h.2⟩

theorem insertCell_pairwise {cs : List (Nat × Word)} {k : Nat} (v : Word) (h : cs.Pairwise (fun c d => c.1 < d.1))
    (hfree : ∀ c ∈ cs, c.1 ≠ k) : (insertCell cs k v).Pairwise (fun c d => c.1 < d.1) := by
  induction cs with
  | nil => simp [insertCell]
  | cons c cs ih =>
    rw [List.pairwise_cons] at h
    by_cases hlt : k < c.1
    · simp only [insertCell, hlt, if_true, List.pairwise_cons]
      refine ⟨fun d hd => ?_, h.1, h.2⟩
      rcases List.mem_cons.1 hd with rfl | hd
      · exact hlt
      · exact lt_trans hlt (h.1 d hd)
    · simp only [insertCell, hlt, if_false, List.pairwise_cons]
      refine ⟨fun d hd => ?_, ih h.2 (fun d hd => hfree d (List.mem_cons_of_mem _ hd))⟩
      rcases mem_insertCell hd with rfl | hd
      · exact lt_of_le_of_ne (not_lt.1 hlt) (hfree c (List.mem_cons_self ..))
      · exact h.1 d hd

/-! ### The store (R51 to R53) -/

/-- Which addresses are in bounds depends on MEMLEN alone. -/
theorem Memory.read_isSome (m : Memory) (a : Word) : (m.read a).isSome = m.inBounds a := by
  unfold Memory.read; cases m.inBounds a <;> rfl

/-- Everything that a write can do: it answers exactly in bounds, keeps MEMLEN, gives its index the word, and leaves every other index. -/
theorem Memory.write_spec {m m' : Memory} {a v : Word} (h : m.write a v = some m') :
    m.inBounds a = true ∧ m'.len = m.len ∧ m'.read a = some v ∧ ∀ b, b ≠ a → m'.read b = m.read b := by
  unfold Memory.write at h
  split at h
  · rename_i hb
    cases h
    refine ⟨hb, rfl, ?_, fun b hab => ?_⟩
    · have : (a.toNat < m.len) := by simpa [Memory.inBounds] using hb
      simp [Memory.read, Memory.inBounds, this, lookupCell_setCell]
    · have : b.toNat ≠ a.toNat := fun e => hab (BitVec.eq_of_toNat_eq e)
      simp [Memory.read, Memory.inBounds, lookupCell_setCell, this]
  · cases h

/-- A write answers exactly when a read of the same address does. -/
theorem Memory.write_eq_none_iff (m : Memory) (a v : Word) : m.write a v = none ↔ m.read a = none := by
  unfold Memory.write Memory.read
  split <;> simp

/-- A write keeps the canonical form. -/
theorem Memory.write_wf {m m' : Memory} {a v : Word} (h : m.write a v = some m') (hw : m.wf) : m'.wf := by
  unfold Memory.write at h
  split at h
  · rename_i hb
    cases h
    obtain ⟨hlen, hsort, hcells⟩ := hw
    have hlt : a.toNat < m.len := by simpa [Memory.inBounds] using hb
    have herase := eraseCell_pairwise a.toNat hsort
    refine ⟨hlen, ?_, ?_⟩ <;> unfold setCell <;> dsimp only <;> split
    · exact herase
    · exact insertCell_pairwise v herase (fun c hc => (eraseCell_subset hc).2)
    · exact fun c hc => hcells c (eraseCell_subset hc).1
    · rename_i hv
      intro c hc
      rcases mem_insertCell hc with rfl | hc
      · exact ⟨hlt, hv⟩
      · exact hcells c (eraseCell_subset hc).1
  · cases h

/-! ### The image of a launch (R67) -/

theorem mem_cellsFrom {k : Nat} {ws : List Word} {c : Nat × Word} (h : c ∈ cellsFrom k ws) :
    k ≤ c.1 ∧ c.1 < k + ws.length ∧ c.2 ≠ Memory.unlisted := by
  induction ws generalizing k with
  | nil => simp [cellsFrom] at h
  | cons w ws ih =>
    unfold cellsFrom at h
    split at h
    · obtain ⟨hlow, hhigh, hne⟩ := ih h
      exact ⟨by omega, by simp only [List.length_cons]; omega, hne⟩
    · rename_i hw
      rcases List.mem_cons.1 h with rfl | h
      · exact ⟨le_refl _, by simp, hw⟩
      · obtain ⟨hlow, hhigh, hne⟩ := ih h
        exact ⟨by omega, by simp only [List.length_cons]; omega, hne⟩

theorem cellsFrom_pairwise (k : Nat) (ws : List Word) : (cellsFrom k ws).Pairwise (fun c d => c.1 < d.1) := by
  induction ws generalizing k with
  | nil => simp [cellsFrom]
  | cons w ws ih =>
    unfold cellsFrom
    split
    · exact ih (k + 1)
    · exact List.pairwise_cons.2 ⟨fun d hd => (mem_cellsFrom hd).1, ih (k + 1)⟩

theorem lookupCell_of_forall_ne {cs : List (Nat × Word)} {j : Nat} (h : ∀ c ∈ cs, c.1 ≠ j) : lookupCell cs j = Memory.unlisted := by
  induction cs with
  | nil => rfl
  | cons c cs ih =>
    simp only [lookupCell, h c (List.mem_cons_self ..), if_false]
    exact ih (fun d hd => h d (List.mem_cons_of_mem _ hd))

theorem lookupCell_cellsFrom (k : Nat) (ws : List Word) (j : Nat) (hj : j < ws.length) :
    lookupCell (cellsFrom k ws) (k + j) = ws[j] := by
  induction ws generalizing k j with
  | nil => simp at hj
  | cons w ws ih =>
    cases j with
    | zero =>
      unfold cellsFrom
      split
      · rename_i hw
        rw [lookupCell_of_forall_ne (fun c hc => by have := (mem_cellsFrom hc).1; omega)]
        exact hw.symm
      · simp [lookupCell]
    | succ j =>
      have hrec := ih (k + 1) j (by simpa using hj)
      have hidx : k + (j + 1) = k + 1 + j := by omega
      unfold cellsFrom
      split
      · rw [hidx, hrec]; rfl
      · have hne : ¬k = k + 1 + j := by omega
        rw [hidx, lookupCell, if_neg hne, hrec]; rfl

/-- The store of an image is in canonical form when the image is within R10's bound. -/
theorem Memory.ofImage_wf {image : List Word} (h : image.length ≤ maxMemLen) : (Memory.ofImage image).wf :=
  ⟨h, cellsFrom_pairwise 0 image, fun c hc => by have := mem_cellsFrom hc; exact ⟨by simpa [Memory.ofImage] using this.2.1, this.2.2⟩⟩

/-- R67: `mem[i] = image[i]`, and nothing else is in bounds. -/
theorem Memory.ofImage_read (image : List Word) (a : Word) : (Memory.ofImage image).read a = image[a.toNat]? := by
  unfold Memory.read Memory.inBounds
  by_cases h : a.toNat < (Memory.ofImage image).len
  · have h' : a.toNat < image.length := h
    simp only [h, decide_true, if_true]
    rw [List.getElem?_eq_getElem h']
    have := lookupCell_cellsFrom 0 image a.toNat h'
    rw [Nat.zero_add] at this
    exact congrArg some this
  · have h' : image.length ≤ a.toNat := Nat.le_of_not_lt h
    simp [h, h']

end Sys2Proof.Machine
end

