-- ==== Sys2Proof/Laws/State.lean ====
section
/-! SUPPORT. For every update of the state, one lemma per field. No later proof unfolds a record update. -/

namespace Sys2Proof.Machine

/-! ### setPc -/

@[simp] theorem setPc_regs (s : State) (t : Word) : (setPc s t).regs = s.regs := rfl
@[simp] theorem setPc_pc (s : State) (t : Word) : (setPc s t).pc = t := rfl
@[simp] theorem setPc_ir (s : State) (t : Word) : (setPc s t).ir = s.ir := rfl
@[simp] theorem setPc_halted (s : State) (t : Word) : (setPc s t).halted = s.halted := rfl
@[simp] theorem setPc_lastWrite (s : State) (t : Word) : (setPc s t).lastWrite = s.lastWrite := rfl
@[simp] theorem setPc_mem (s : State) (t : Word) : (setPc s t).mem = s.mem := rfl
@[simp] theorem setPc_pipe (s : State) (t : Word) : (setPc s t).pipe = s.pipe := rfl
@[simp] theorem setPc_stats (s : State) (t : Word) : (setPc s t).stats = s.stats := rfl
@[simp] theorem setPc_mask (s : State) (t : Word) : (setPc s t).mask = s.mask := rfl
@[simp] theorem setPc_fault (s : State) (t : Word) : (setPc s t).fault = s.fault := rfl
@[simp] theorem setPc_phase (s : State) (t : Word) : (setPc s t).phase = s.phase := rfl
@[simp] theorem setPc_params (s : State) (t : Word) : (setPc s t).params = s.params := rfl

/-! ### complete -/

@[simp] theorem complete_regs (s : State) (k : StatClass) : (complete s k).regs = s.regs := rfl
@[simp] theorem complete_pc (s : State) (k : StatClass) : (complete s k).pc = s.pc := rfl
@[simp] theorem complete_ir (s : State) (k : StatClass) : (complete s k).ir = s.ir := rfl
@[simp] theorem complete_halted (s : State) (k : StatClass) : (complete s k).halted = s.halted := rfl
@[simp] theorem complete_lastWrite (s : State) (k : StatClass) : (complete s k).lastWrite = s.lastWrite := rfl
@[simp] theorem complete_mem (s : State) (k : StatClass) : (complete s k).mem = s.mem := rfl
@[simp] theorem complete_pipe (s : State) (k : StatClass) : (complete s k).pipe = s.pipe := rfl
@[simp] theorem complete_stats (s : State) (k : StatClass) : (complete s k).stats = countInstr s.stats k := rfl
@[simp] theorem complete_mask (s : State) (k : StatClass) : (complete s k).mask = s.mask := rfl
@[simp] theorem complete_fault (s : State) (k : StatClass) : (complete s k).fault = s.fault := rfl
@[simp] theorem complete_phase (s : State) (k : StatClass) : (complete s k).phase = s.phase := rfl
@[simp] theorem complete_params (s : State) (k : StatClass) : (complete s k).params = s.params := rfl

/-! ### setHalted -/

@[simp] theorem setHalted_regs (s : State) : (setHalted s).regs = s.regs := rfl
@[simp] theorem setHalted_pc (s : State) : (setHalted s).pc = s.pc := rfl
@[simp] theorem setHalted_ir (s : State) : (setHalted s).ir = s.ir := rfl
@[simp] theorem setHalted_halted (s : State) : (setHalted s).halted = true := rfl
@[simp] theorem setHalted_lastWrite (s : State) : (setHalted s).lastWrite = s.lastWrite := rfl
@[simp] theorem setHalted_mem (s : State) : (setHalted s).mem = s.mem := rfl
@[simp] theorem setHalted_pipe (s : State) : (setHalted s).pipe = s.pipe := rfl
@[simp] theorem setHalted_stats (s : State) : (setHalted s).stats = s.stats := rfl
@[simp] theorem setHalted_mask (s : State) : (setHalted s).mask = s.mask := rfl
@[simp] theorem setHalted_fault (s : State) : (setHalted s).fault = s.fault := rfl
@[simp] theorem setHalted_phase (s : State) : (setHalted s).phase = s.phase := rfl
@[simp] theorem setHalted_params (s : State) : (setHalted s).params = s.params := rfl

/-! ### setPhase -/

@[simp] theorem setPhase_regs (s : State) (p : Phase) : (setPhase s p).regs = s.regs := rfl
@[simp] theorem setPhase_pc (s : State) (p : Phase) : (setPhase s p).pc = s.pc := rfl
@[simp] theorem setPhase_ir (s : State) (p : Phase) : (setPhase s p).ir = s.ir := rfl
@[simp] theorem setPhase_halted (s : State) (p : Phase) : (setPhase s p).halted = s.halted := rfl
@[simp] theorem setPhase_lastWrite (s : State) (p : Phase) : (setPhase s p).lastWrite = s.lastWrite := rfl
@[simp] theorem setPhase_mem (s : State) (p : Phase) : (setPhase s p).mem = s.mem := rfl
@[simp] theorem setPhase_pipe (s : State) (p : Phase) : (setPhase s p).pipe = s.pipe := rfl
@[simp] theorem setPhase_stats (s : State) (p : Phase) : (setPhase s p).stats = s.stats := rfl
@[simp] theorem setPhase_mask (s : State) (p : Phase) : (setPhase s p).mask = s.mask := rfl
@[simp] theorem setPhase_fault (s : State) (p : Phase) : (setPhase s p).fault = s.fault := rfl
@[simp] theorem setPhase_phase (s : State) (p : Phase) : (setPhase s p).phase = p := rfl
@[simp] theorem setPhase_params (s : State) (p : Phase) : (setPhase s p).params = s.params := rfl

/-! ### setMem -/

@[simp] theorem setMem_regs (s : State) (m : Memory) : (setMem s m).regs = s.regs := rfl
@[simp] theorem setMem_pc (s : State) (m : Memory) : (setMem s m).pc = s.pc := rfl
@[simp] theorem setMem_ir (s : State) (m : Memory) : (setMem s m).ir = s.ir := rfl
@[simp] theorem setMem_halted (s : State) (m : Memory) : (setMem s m).halted = s.halted := rfl
@[simp] theorem setMem_lastWrite (s : State) (m : Memory) : (setMem s m).lastWrite = s.lastWrite := rfl
@[simp] theorem setMem_mem (s : State) (m : Memory) : (setMem s m).mem = m := rfl
@[simp] theorem setMem_pipe (s : State) (m : Memory) : (setMem s m).pipe = s.pipe := rfl
@[simp] theorem setMem_stats (s : State) (m : Memory) : (setMem s m).stats = s.stats := rfl
@[simp] theorem setMem_mask (s : State) (m : Memory) : (setMem s m).mask = s.mask := rfl
@[simp] theorem setMem_fault (s : State) (m : Memory) : (setMem s m).fault = s.fault := rfl
@[simp] theorem setMem_phase (s : State) (m : Memory) : (setMem s m).phase = s.phase := rfl
@[simp] theorem setMem_params (s : State) (m : Memory) : (setMem s m).params = s.params := rfl

/-! ### raiseFatal -/

@[simp] theorem raiseFatal_regs (s : State) (r : FaultRecord) : (raiseFatal s r).regs = s.regs := rfl
@[simp] theorem raiseFatal_pc (s : State) (r : FaultRecord) : (raiseFatal s r).pc = s.pc := rfl
@[simp] theorem raiseFatal_ir (s : State) (r : FaultRecord) : (raiseFatal s r).ir = s.ir := rfl
@[simp] theorem raiseFatal_halted (s : State) (r : FaultRecord) : (raiseFatal s r).halted = s.halted := rfl
@[simp] theorem raiseFatal_lastWrite (s : State) (r : FaultRecord) : (raiseFatal s r).lastWrite = s.lastWrite := rfl
@[simp] theorem raiseFatal_mem (s : State) (r : FaultRecord) : (raiseFatal s r).mem = s.mem := rfl
@[simp] theorem raiseFatal_pipe (s : State) (r : FaultRecord) : (raiseFatal s r).pipe = s.pipe := rfl
@[simp] theorem raiseFatal_stats (s : State) (r : FaultRecord) : (raiseFatal s r).stats = s.stats := rfl
@[simp] theorem raiseFatal_mask (s : State) (r : FaultRecord) : (raiseFatal s r).mask = s.mask := rfl
@[simp] theorem raiseFatal_fault (s : State) (r : FaultRecord) : (raiseFatal s r).fault = some r := rfl
@[simp] theorem raiseFatal_phase (s : State) (r : FaultRecord) : (raiseFatal s r).phase = .ready := rfl
@[simp] theorem raiseFatal_params (s : State) (r : FaultRecord) : (raiseFatal s r).params = s.params := rfl

/-! ### preamble -/

@[simp] theorem preamble_regs (s : State) : (preamble s).regs = s.regs.set 0 0#32 := rfl
@[simp] theorem preamble_pc (s : State) : (preamble s).pc = s.pc + 1#32 := rfl
@[simp] theorem preamble_ir (s : State) : (preamble s).ir = s.pc := rfl
@[simp] theorem preamble_halted (s : State) : (preamble s).halted = s.halted := rfl
@[simp] theorem preamble_lastWrite (s : State) : (preamble s).lastWrite = none := rfl
@[simp] theorem preamble_mem (s : State) : (preamble s).mem = s.mem := rfl
@[simp] theorem preamble_pipe (s : State) : (preamble s).pipe = s.pipe := rfl
@[simp] theorem preamble_stats (s : State) : (preamble s).stats = s.stats := rfl
@[simp] theorem preamble_mask (s : State) : (preamble s).mask = s.mask := rfl
@[simp] theorem preamble_fault (s : State) : (preamble s).fault = s.fault := rfl
@[simp] theorem preamble_phase (s : State) : (preamble s).phase = s.phase := rfl
@[simp] theorem preamble_params (s : State) : (preamble s).params = s.params := rfl

/-! ### tally -/

@[simp] theorem tally_regs (s : State) (m : BitVec 6) : (tally s m).regs = s.regs := rfl
@[simp] theorem tally_pc (s : State) (m : BitVec 6) : (tally s m).pc = s.pc := rfl
@[simp] theorem tally_ir (s : State) (m : BitVec 6) : (tally s m).ir = s.ir := rfl
@[simp] theorem tally_halted (s : State) (m : BitVec 6) : (tally s m).halted = s.halted := rfl
@[simp] theorem tally_lastWrite (s : State) (m : BitVec 6) : (tally s m).lastWrite = s.lastWrite := rfl
@[simp] theorem tally_mem (s : State) (m : BitVec 6) : (tally s m).mem = s.mem := rfl
@[simp] theorem tally_stats (s : State) (m : BitVec 6) : (tally s m).stats = s.stats := rfl
@[simp] theorem tally_mask (s : State) (m : BitVec 6) : (tally s m).mask = m := rfl
@[simp] theorem tally_fault (s : State) (m : BitVec 6) : (tally s m).fault = s.fault := rfl
@[simp] theorem tally_phase (s : State) (m : BitVec 6) : (tally s m).phase = .ready := rfl
@[simp] theorem tally_params (s : State) (m : BitVec 6) : (tally s m).params = s.params := rfl
@[simp] theorem tally_issueCycles (s : State) (m : BitVec 6) : (tally s m).pipe.issueCycles = s.pipe.issueCycles + 1 := rfl
@[simp] theorem tally_doubleIssues (s : State) (m : BitVec 6) : (tally s m).pipe.doubleIssues = s.pipe.doubleIssues + maskBit m 0 := rfl
@[simp] theorem tally_controlStops (s : State) (m : BitVec 6) : (tally s m).pipe.controlStops = s.pipe.controlStops + maskBit m 1 := rfl
@[simp] theorem tally_structuralStops (s : State) (m : BitVec 6) : (tally s m).pipe.structuralStops = s.pipe.structuralStops + maskBit m 2 := rfl
@[simp] theorem tally_dataStops (s : State) (m : BitVec 6) : (tally s m).pipe.dataStops = s.pipe.dataStops + maskBit m 3 := rfl
@[simp] theorem tally_overlaps (s : State) (m : BitVec 6) : (tally s m).pipe.overlaps = s.pipe.overlaps + maskBit m 4 := rfl

/-! ### writeReg -/

@[simp] theorem writeReg_pc (s : State) (d : RegIdx) (v : Word) : (writeReg s d v).pc = s.pc := by
  unfold writeReg; split <;> rfl
@[simp] theorem writeReg_ir (s : State) (d : RegIdx) (v : Word) : (writeReg s d v).ir = s.ir := by
  unfold writeReg; split <;> rfl
@[simp] theorem writeReg_halted (s : State) (d : RegIdx) (v : Word) : (writeReg s d v).halted = s.halted := by
  unfold writeReg; split <;> rfl
@[simp] theorem writeReg_mem (s : State) (d : RegIdx) (v : Word) : (writeReg s d v).mem = s.mem := by
  unfold writeReg; split <;> rfl
@[simp] theorem writeReg_pipe (s : State) (d : RegIdx) (v : Word) : (writeReg s d v).pipe = s.pipe := by
  unfold writeReg; split <;> rfl
@[simp] theorem writeReg_stats (s : State) (d : RegIdx) (v : Word) : (writeReg s d v).stats = s.stats := by
  unfold writeReg; split <;> rfl
@[simp] theorem writeReg_mask (s : State) (d : RegIdx) (v : Word) : (writeReg s d v).mask = s.mask := by
  unfold writeReg; split <;> rfl
@[simp] theorem writeReg_fault (s : State) (d : RegIdx) (v : Word) : (writeReg s d v).fault = s.fault := by
  unfold writeReg; split <;> rfl
@[simp] theorem writeReg_phase (s : State) (d : RegIdx) (v : Word) : (writeReg s d v).phase = s.phase := by
  unfold writeReg; split <;> rfl
@[simp] theorem writeReg_params (s : State) (d : RegIdx) (v : Word) : (writeReg s d v).params = s.params := by
  unfold writeReg; split <;> rfl

/-- What `lastWrite` is after a register write (R30). -/
@[simp] theorem writeReg_lastWrite (s : State) (d : RegIdx) (v : Word) :
    (writeReg s d v).lastWrite = if d = 0 ∧ s.params.r0WriteRecorded = false then s.lastWrite else some d := by
  unfold writeReg
  by_cases hd : d = 0 <;> cases h : s.params.r0WriteRecorded <;> simp [hd]

/-- The storage of register 0 is not written (R22). -/
@[simp] theorem writeReg_slotZero (s : State) (d : RegIdx) (v : Word) : (writeReg s d v).regs[0] = s.regs[0] := by
  unfold writeReg
  split
  · rfl
  · rename_i hd
    have : (d : Nat) ≠ 0 := fun h => hd (Fin.ext h)
    simp [this]

@[simp] theorem preamble_slotZero (s : State) : (preamble s).regs[0] = 0#32 := by simp [preamble]

/-! ### writeResult -/

@[simp] theorem writeResult_pc (s : State) (d : RegIdx) (v : Word) (k : StatClass) : (writeResult s d v k).pc = s.pc := by
  simp [writeResult]
@[simp] theorem writeResult_ir (s : State) (d : RegIdx) (v : Word) (k : StatClass) : (writeResult s d v k).ir = s.ir := by
  simp [writeResult]
@[simp] theorem writeResult_halted (s : State) (d : RegIdx) (v : Word) (k : StatClass) : (writeResult s d v k).halted = s.halted := by
  simp [writeResult]
@[simp] theorem writeResult_mem (s : State) (d : RegIdx) (v : Word) (k : StatClass) : (writeResult s d v k).mem = s.mem := by
  simp [writeResult]
@[simp] theorem writeResult_pipe (s : State) (d : RegIdx) (v : Word) (k : StatClass) : (writeResult s d v k).pipe = s.pipe := by
  simp [writeResult]
@[simp] theorem writeResult_mask (s : State) (d : RegIdx) (v : Word) (k : StatClass) : (writeResult s d v k).mask = s.mask := by
  simp [writeResult]
@[simp] theorem writeResult_fault (s : State) (d : RegIdx) (v : Word) (k : StatClass) : (writeResult s d v k).fault = s.fault := by
  simp [writeResult]
@[simp] theorem writeResult_phase (s : State) (d : RegIdx) (v : Word) (k : StatClass) : (writeResult s d v k).phase = s.phase := by
  simp [writeResult]
@[simp] theorem writeResult_params (s : State) (d : RegIdx) (v : Word) (k : StatClass) : (writeResult s d v k).params = s.params := by
  simp [writeResult]
@[simp] theorem writeResult_stats (s : State) (d : RegIdx) (v : Word) (k : StatClass) :
    (writeResult s d v k).stats = countInstr s.stats k := by
  simp [writeResult]
@[simp] theorem writeResult_lastWrite (s : State) (d : RegIdx) (v : Word) (k : StatClass) :
    (writeResult s d v k).lastWrite = if d = 0 ∧ s.params.r0WriteRecorded = false then s.lastWrite else some d := by
  simp [writeResult]
@[simp] theorem writeResult_slotZero (s : State) (d : RegIdx) (v : Word) (k : StatClass) :
    (writeResult s d v k).regs[0] = s.regs[0] := by
  simp [writeResult]

/-! ### Reading a register (R22) -/

/-- Register 0 reads as zero in every state. -/
@[simp] theorem readReg_zero (s : State) : readReg s 0 = 0#32 := rfl

/-- A read sees the storage alone. -/
theorem readReg_of_regs {s t : State} (h : t.regs = s.regs) (r : RegIdx) : readReg t r = readReg s r := by
  simp [readReg, h]

/-- A write is seen by a read of the same register, unless it is register 0, and by no other read. -/
@[simp] theorem readReg_writeReg (s : State) (d : RegIdx) (v : Word) (r : RegIdx) :
    readReg (writeReg s d v) r = if r = d ∧ d ≠ 0 then v else readReg s r := by
  unfold writeReg readReg
  by_cases hr : r = 0
  · subst hr
    by_cases hd : d = 0
    · simp [hd]
    · have : ¬(0 : RegIdx) = d := fun h => hd h.symm
      simp [hd, this]
  · by_cases hd : d = 0
    · subst hd; simp [hr]
    · by_cases h : r = d
      · subst h; simp [hr]
      · have : (d : Nat) ≠ (r : Nat) := fun e => h (Fin.ext e.symm)
        simp [hr, hd, h, this]

@[simp] theorem readReg_writeResult (s : State) (d : RegIdx) (v : Word) (k : StatClass) (r : RegIdx) :
    readReg (writeResult s d v k) r = if r = d ∧ d ≠ 0 then v else readReg s r := by
  rw [writeResult, ← readReg_writeReg s d v r]; rfl

@[simp] theorem readReg_setPc (s : State) (t : Word) (r : RegIdx) : readReg (setPc s t) r = readReg s r := rfl
@[simp] theorem readReg_complete (s : State) (k : StatClass) (r : RegIdx) : readReg (complete s k) r = readReg s r := rfl
@[simp] theorem readReg_setHalted (s : State) (r : RegIdx) : readReg (setHalted s) r = readReg s r := rfl
@[simp] theorem readReg_setPhase (s : State) (p : Phase) (r : RegIdx) : readReg (setPhase s p) r = readReg s r := rfl
@[simp] theorem readReg_setMem (s : State) (m : Memory) (r : RegIdx) : readReg (setMem s m) r = readReg s r := rfl
@[simp] theorem readReg_raiseFatal (s : State) (f : FaultRecord) (r : RegIdx) : readReg (raiseFatal s f) r = readReg s r := rfl
@[simp] theorem readReg_tally (s : State) (m : BitVec 6) (r : RegIdx) : readReg (tally s m) r = readReg s r := rfl

/-- The preamble's zeroing of register 0 changes no value that is read (R22). -/
@[simp] theorem readReg_preamble (s : State) (r : RegIdx) : readReg (preamble s) r = readReg s r := by
  unfold readReg
  split
  · rfl
  · rename_i hr
    have : (0 : Nat) ≠ (r : Nat) := fun e => hr (Fin.ext e.symm)
    simp [this]

end Sys2Proof.Machine
end

