-- ==== Sys2Proof/Laws/Exec.lean ====
section
/-! SUPPORT. Everything that an instruction and an engine step can do, said once: `exec` always answers a next state, of one of seven
shapes. The lemmas about every instruction are read off the shapes. -/

namespace Sys2Proof.Machine

/-- The shapes of an instruction's effect on a state `s` (R104). -/
inductive Effect (s : State) : State → Prop where
  /-- The instructions of 41_alu.md and lw. -/
  | result (d : RegIdx) (v : Word) (k : StatClass) : Effect s (writeResult s d v k)
  /-- jal, jalr. -/
  | link (d : RegIdx) (v t : Word) (k : StatClass) : Effect s (setPc (writeResult s d v k) t)
  /-- j, jr, a taken branch. -/
  | jump (t : Word) (k : StatClass) : Effect s (setPc (complete s k) t)
  /-- An untaken branch. -/
  | untaken (k : StatClass) : Effect s (complete s k)
  /-- sw. -/
  | store (m : Memory) (a v : Word) (k : StatClass) (h : s.mem.write a v = some m) : Effect s (complete (setMem s m) k)
  /-- HALT. -/
  | halt : Effect s (setHalted s)
  /-- lw or sw out of bounds, a malformed word. -/
  | fatal (r : FaultRecord) : Effect s (raiseFatal s r)

theorem branchOn_effect (c : Bool) (imm : BitVec 16) (s : State) : ∃ t, branchOn c imm s = .next t ∧ Effect s t := by
  cases c
  · exact ⟨_, rfl, .untaken _⟩
  · exact ⟨_, rfl, .jump _ _⟩

theorem execLw_effect (rs rt : RegIdx) (imm : BitVec 16) (s : State) : ∃ t, execLw rs rt imm s = .next t ∧ Effect s t := by
  unfold execLw
  split
  · exact ⟨_, rfl, .result _ _ _⟩
  · exact ⟨_, rfl, .fatal _⟩

theorem execSw_effect (rs rt : RegIdx) (imm : BitVec 16) (s : State) : ∃ t, execSw rs rt imm s = .next t ∧ Effect s t := by
  unfold execSw
  split
  · rename_i h
    exact ⟨_, rfl, .store _ _ _ _ h⟩
  · exact ⟨_, rfl, .fatal _⟩

/-- Every instruction answers a next state, and its effect has one of the shapes. -/
theorem exec_effect (i : Instr) (s : State) : ∃ t, exec i s = .next t ∧ Effect s t := by
  cases i with
  | halt => exact ⟨_, rfl, .halt⟩
  | sll _ rt rd shamt => exact ⟨_, rfl, .result _ _ _⟩
  | srl _ rt rd shamt => exact ⟨_, rfl, .result _ _ _⟩
  | sra _ rt rd shamt => exact ⟨_, rfl, .result _ _ _⟩
  | jr rs _ _ _ => exact ⟨_, rfl, .jump _ _⟩
  | jalr rs _ rd _ => exact ⟨_, rfl, .link _ _ _ _⟩
  | addu rs rt rd _ => exact ⟨_, rfl, .result _ _ _⟩
  | subu rs rt rd _ => exact ⟨_, rfl, .result _ _ _⟩
  | and rs rt rd _ => exact ⟨_, rfl, .result _ _ _⟩
  | or rs rt rd _ => exact ⟨_, rfl, .result _ _ _⟩
  | xor rs rt rd _ => exact ⟨_, rfl, .result _ _ _⟩
  | nor rs rt rd _ => exact ⟨_, rfl, .result _ _ _⟩
  | mul rs rt rd _ => exact ⟨_, rfl, .result _ _ _⟩
  | j target => exact ⟨_, rfl, .jump _ _⟩
  | jal target => exact ⟨_, rfl, .link _ _ _ _⟩
  | beq rs rt imm => exact branchOn_effect _ _ _
  | bne rs rt imm => exact branchOn_effect _ _ _
  | blez rs _ imm => exact branchOn_effect _ _ _
  | bgtz rs _ imm => exact branchOn_effect _ _ _
  | addiu rs rt imm => exact ⟨_, rfl, .result _ _ _⟩
  | slti rs rt imm => exact ⟨_, rfl, .result _ _ _⟩
  | xori rs rt imm => exact ⟨_, rfl, .result _ _ _⟩
  | lui _ rt imm => exact ⟨_, rfl, .result _ _ _⟩
  | lw rs rt imm => exact execLw_effect _ _ _ _
  | sw rs rt imm => exact execSw_effect _ _ _ _

/-- A word that is dispatched answers a next state of one of the shapes. -/
theorem dispatchWord_effect (w : Word) (s : State) : ∃ t, dispatchWord w s = .next t ∧ Effect s t := by
  unfold dispatchWord
  split
  · exact exec_effect _ s
  · exact ⟨_, rfl, .fatal _⟩

/-- An engine step answers a next state: an effect on what the preamble left. -/
theorem engineStep_effect (s : State) : ∃ t, engineStep s = .next t ∧ Effect (preamble s) t := by
  unfold engineStep
  split
  · exact dispatchWord_effect _ _
  · exact ⟨_, rfl, .fatal _⟩

/-- The fields that no instruction writes. -/
structure Untouched (s t : State) : Prop where
  ir : t.ir = s.ir
  pipe : t.pipe = s.pipe
  mask : t.mask = s.mask
  params : t.params = s.params
  memLen : t.mem.len = s.mem.len
  slotZero : t.regs[0] = s.regs[0]

theorem Effect.untouched {s t : State} (h : Effect s t) : Untouched s t := by
  cases h with
  | store m a v k h => exact ⟨rfl, rfl, rfl, rfl, (Memory.write_spec h).2.1, rfl⟩
  | result d v k => constructor <;> simp
  | link d v t k => constructor <;> simp
  | jump t k => constructor <;> simp
  | untaken k => constructor <;> simp
  | halt => constructor <;> simp
  | fatal r => constructor <;> simp

/-- No instruction breaks the store's canonical form. -/
theorem Effect.memory_wf {s t : State} (h : Effect s t) (hw : s.mem.wf) : t.mem.wf := by
  cases h with
  | store m a v k h => exact Memory.write_wf h hw
  | result d v k => simpa using hw
  | link d v t k => simpa using hw
  | jump t k => exact hw
  | untaken k => exact hw
  | halt => exact hw
  | fatal r => exact hw

end Sys2Proof.Machine
end

