-- ==== Sys2Proof/Laws/Observer.lean ====
section
/-! SUPPORT. The observer's work around an engine step: what can follow the step of the first and of the second instruction. -/

namespace Sys2Proof.Machine

@[simp] theorem onNext_next (f : State → State) (s : State) : onNext f (.next s) = .next (f s) := rfl
@[simp] theorem onNext_fault (f : State → State) (e : Fault) : onNext f (.fault e) = .fault e := rfl
@[simp] theorem onNext_refused (f : State → State) (e : Refusal) : onNext f (.refused e) = .refused e := rfl

@[simp] theorem countIf_true : countIf true = 1 := rfl
@[simp] theorem countIf_false : countIf false = 0 := rfl
@[simp] theorem ready_beq_execB : (Phase.ready == Phase.execB) = false := rfl
@[simp] theorem execB_beq_execB : (Phase.execB == Phase.execB) = true := rfl

/-- What follows the step of the first instruction: nothing after a fatal error, a tally, a fatal error of the second peek, or phase EXEC_B
(R170). -/
inductive AfterFirst (a : Word) (s : State) : State → Prop where
  | faulted (h : s.fault ≠ none) : AfterFirst a s s
  | haltAlone (hf : s.fault = none) (h : s.halted = true) : AfterFirst a s (tally s IssueClass.haltAlone.mask)
  | stopped (c : IssueClass) (hf : s.fault = none) (hh : s.halted = false) (hd : c ≠ .dual) (ha : c ≠ .haltAlone) :
      AfterFirst a s (tally s c.mask)
  | peekFault (hc : isControl a = false) (hf : s.fault = none) (hh : s.halted = false) (h : peek s = none) : AfterFirst a s (peekFault s)
  | second (hc : isControl a = false) (hf : s.fault = none) (hh : s.halted = false) (h : (peek s).isSome = true) :
      AfterFirst a s (setPhase s .execB)

theorem classify_ne_haltAlone {p : Params} {a : Word} {lw : Option RegIdx} {b : Word} (h : isControl a = false) :
    classify p a lw b ≠ .haltAlone := by
  have : isHalt a = false := by
    unfold isControl at h
    cases hh : isHalt a
    · rfl
    · simp [hh] at h
  unfold classify
  rw [this, h]
  simp only [Bool.false_eq_true, if_false]
  split_ifs <;> simp

theorem afterFirst_cases (a : Word) (s : State) : AfterFirst a s (afterFirst a s) := by
  unfold afterFirst
  split
  · rename_i h
    exact .faulted (fun e => by simp [e] at h)
  · rename_i h
    have hf : s.fault = none := by simpa using h
    split
    · rename_i hh
      exact .haltAlone hf hh
    · rename_i hh
      have hh : s.halted = false := by simpa using hh
      split
      · exact .stopped .control hf hh (by simp) (by simp)
      · rename_i hc
        have hc : isControl a = false := by simpa using hc
        split
        · rename_i hp
          exact .peekFault hc hf hh hp
        · rename_i b hb
          split
          · exact .second hc hf hh (by simp [hb])
          · rename_i hd
            exact .stopped _ hf hh hd (classify_ne_haltAlone hc)

/-- What follows the step of the second instruction: nothing after a fatal error, otherwise the tally of a dual issue (R177). -/
theorem afterSecond_cases (s : State) :
    (s.fault ≠ none ∧ afterSecond s = s) ∨ (s.fault = none ∧ afterSecond s = tally s IssueClass.dual.mask) := by
  unfold afterSecond
  cases h : s.fault <;> simp

/-- The observer's class of control transfers (R172) in the decoder's terms: a word that dispatch names is in it exactly by its name. -/
theorem isControl_of_opOfWord {w : Word} {o : Op} (h : opOfWord w = .op o) :
    isControl w = decide (o ∈ [Op.halt, .j, .jal, .beq, .bne, .blez, .bgtz, .jr, .jalr]) := by
  rcases selects_of_opOfWord h with ⟨rfl, rfl⟩ | ⟨hne, hw, hop, hf⟩
  · decide
  · have hh : isHalt w = false := by simpa [isHalt] using hw
    unfold isControl
    rw [hh, hop]
    cases o with
    | halt => exact absurd rfl hne
    | sll => rw [hf _ rfl]; rfl
    | srl => rw [hf _ rfl]; rfl
    | sra => rw [hf _ rfl]; rfl
    | jr => rw [hf _ rfl]; rfl
    | jalr => rw [hf _ rfl]; rfl
    | addu => rw [hf _ rfl]; rfl
    | subu => rw [hf _ rfl]; rfl
    | and => rw [hf _ rfl]; rfl
    | or => rw [hf _ rfl]; rfl
    | xor => rw [hf _ rfl]; rfl
    | nor => rw [hf _ rfl]; rfl
    | _ => rfl

/-- A step is refused by nothing, faults exactly in an ended machine, and otherwise answers a next state (R28, R37, R182). -/
theorem step_of_halted {s : State} (h : s.halted = true) : step s = .fault .halted := by
  simp [step, observedStep, h]

theorem step_of_fault {s : State} {r : FaultRecord} (hh : s.halted = false) (h : s.fault = some r) : step s = .fault (.fatal r) := by
  simp [step, observedStep, h, hh]

theorem step_ready {s : State} {a : Word} (hh : s.halted = false) (hf : s.fault = none) (hp : s.phase = .ready)
    (ha : peek s = some a) : step s = onNext (afterFirst a) (engineStep s) := by
  simp [step, observedStep, hh, hf, hp, ha]

theorem step_ready_oob {s : State} (hh : s.halted = false) (hf : s.fault = none) (hp : s.phase = .ready) (ha : peek s = none) :
    step s = .next (peekFault s) := by
  simp [step, observedStep, hh, hf, hp, ha]

theorem step_execB {s : State} (hh : s.halted = false) (hf : s.fault = none) (hp : s.phase = .execB) :
    step s = onNext afterSecond (engineStep s) := by
  simp [step, observedStep, hh, hf, hp]

/-- Everything a step that answers a next state can have done. -/
inductive StepCase (s t : State) : Prop where
  /-- The peek of the first instruction was out of bounds. -/
  | peekFirst (hp : s.phase = .ready) (hn : peek s = none) (ht : t = peekFault s)
  /-- The first instruction of an issue cycle ran. -/
  | first (a : Word) (u : State) (hp : s.phase = .ready) (ha : peek s = some a) (hu : engineStep s = .next u)
      (he : Effect (preamble s) u) (ht : t = afterFirst a u)
  /-- The second instruction ran. -/
  | second (u : State) (hp : s.phase = .execB) (hu : engineStep s = .next u) (he : Effect (preamble s) u) (ht : t = afterSecond u)

theorem step_cases {s t : State} (h : step s = .next t) : s.halted = false ∧ s.fault = none ∧ StepCase s t := by
  cases hh : s.halted with
  | true => rw [step_of_halted hh] at h; cases h
  | false =>
    cases hf : s.fault with
    | some r => rw [step_of_fault hh hf] at h; cases h
    | none =>
      refine ⟨rfl, rfl, ?_⟩
      obtain ⟨u, hu, he⟩ := engineStep_effect s
      cases hp : s.phase with
      | ready =>
        cases ha : peek s with
        | none =>
          rw [step_ready_oob hh hf hp ha] at h
          cases h
          exact .peekFirst hp ha rfl
        | some a =>
          rw [step_ready hh hf hp ha, hu] at h
          cases h
          exact .first a u hp ha hu he rfl
      | execB =>
        rw [step_execB hh hf hp, hu] at h
        cases h
        exact .second u hp hu he rfl

/-- A machine that has not ended always has a next state (I4: never stuck). -/
theorem step_next {s : State} (hh : s.halted = false) (hf : s.fault = none) : ∃ t, step s = .next t := by
  obtain ⟨u, hu, -⟩ := engineStep_effect s
  cases hp : s.phase with
  | ready =>
    cases ha : peek s with
    | none => exact ⟨_, step_ready_oob hh hf hp ha⟩
    | some a => exact ⟨afterFirst a u, by rw [step_ready hh hf hp ha, hu]; rfl⟩
  | execB => exact ⟨afterSecond u, by rw [step_execB hh hf hp, hu]; rfl⟩

end Sys2Proof.Machine
end

