-- ==== Sys2Proof/Laws/Step.lean ====
section
/-! SUPPORT. What an engine step and a step of the machine do, one lemma per question: the three arms of the fetch, the memory, `halted` and
the fatal errors of an instruction, the engine's part of a step, and that the observer's phase, counters and mask change nothing of an engine step; and how a step and a run count. -/

namespace Sys2Proof.Machine

/-! ### The three arms of R101 -/

theorem engineStep_oob {s : State} (h : s.mem.read s.pc = none) :
    engineStep s = .next (raiseFatal (preamble s) (fetchFault s.pc)) := by
  simp [engineStep, h]

theorem engineStep_malformed {s : State} {w : Word} {k : Malformed} (h : s.mem.read s.pc = some w) (hk : decode w = .malformed k) :
    engineStep s = .next (raiseFatal (preamble s) { kind := malformedKind k, addr := s.pc, word := some w, ea := none }) := by
  simp [engineStep, h, dispatchWord, hk, malformedFault]

theorem engineStep_instr {s : State} {w : Word} {i : Instr} (h : s.mem.read s.pc = some w) (hi : decode w = .instr i) :
    engineStep s = exec i (preamble s) := by
  simp [engineStep, h, dispatchWord, hi]

/-- A word that decodes to an instruction is dispatched by its name. -/
theorem opOfWord_of_decode {w : Word} {i : Instr} (h : decode w = .instr i) : opOfWord w = .op i.op := by
  unfold decode at h
  split at h
  · rename_i o ho
    cases h
    rw [ho, op_instrOfFields]
  · cases h

/-! ### Instructions -/

/-- sw alone changes memory, by one write at its effective address. -/
theorem exec_mem {i : Instr} {s t : State} (h : exec i s = .next t) :
    t.mem = s.mem ∨
      ∃ rs rt imm, i = .sw rs rt imm ∧ s.mem.write (effAddr s rs imm) (readReg s rt) = some t.mem := by
  cases i
  case sw rs rt imm =>
    simp only [exec, execSw] at h
    split at h
    · rename_i m hm
      cases h
      exact Or.inr ⟨rs, rt, imm, rfl, hm⟩
    · cases h
      exact Or.inl rfl
  case lw => left; simp only [exec, execLw] at h; split at h <;> (cases h; simp)
  all_goals left
  case beq => simp only [exec, execBeq, branchOn] at h; split at h <;> (cases h; simp)
  case bne => simp only [exec, execBne, branchOn] at h; split at h <;> (cases h; simp)
  case blez => simp only [exec, execBlez, branchOn] at h; split at h <;> (cases h; simp)
  case bgtz => simp only [exec, execBgtz, branchOn] at h; split at h <;> (cases h; simp)
  all_goals (cases h; simp)

/-- An instruction raises a fatal error only as an lw or an sw out of bounds, and then does nothing else. -/
theorem exec_fatal {i : Instr} {s t : State} {r : FaultRecord} (h : exec i s = .next t) (hf : s.fault = none) (ht : t.fault = some r) :
    t = raiseFatal s r ∧
      ∃ rs rt imm, s.mem.read (effAddr s rs imm) = none ∧
        ((i = .lw rs rt imm ∧ r = accessFault s .oobLoad (encode i) (effAddr s rs imm)) ∨
          (i = .sw rs rt imm ∧ r = accessFault s .oobStore (encode i) (effAddr s rs imm))) := by
  cases i
  case lw rs rt imm =>
    simp only [exec, execLw] at h
    split at h
    · cases h; simp [hf] at ht
    · rename_i hn
      cases h
      simp at ht
      subst ht
      exact ⟨rfl, rs, rt, imm, hn, Or.inl ⟨rfl, rfl⟩⟩
  case sw rs rt imm =>
    simp only [exec, execSw] at h
    split at h
    · cases h; simp [hf] at ht
    · rename_i hn
      cases h
      simp at ht
      subst ht
      exact ⟨rfl, rs, rt, imm, (Memory.write_eq_none_iff _ _ _).1 hn, Or.inr ⟨rfl, rfl⟩⟩
  all_goals
    simp only [exec, execHalt, execSll, execSrl, execSra, execJr, execJalr, execAddu, execSubu, execAnd, execOr, execXor, execNor,
      execMul, execJ, execJal, execBeq, execBne, execBlez, execBgtz, execAddiu, execSlti, execXori, execLui, branchOn] at h
  all_goals (try split at h)
  all_goals (cases h; simp [hf] at ht)

/-- HALT alone sets `halted` (R28). -/
theorem exec_halted {i : Instr} {s t : State} (h : exec i s = .next t) (hs : s.halted = false) : t.halted = true ↔ i = .halt := by
  cases i
  case halt => cases h; simp
  case lw => simp only [exec, execLw] at h; split at h <;> (cases h; simp [hs])
  case sw => simp only [exec, execSw] at h; split at h <;> (cases h; simp [hs])
  case beq => simp only [exec, execBeq, branchOn] at h; split at h <;> (cases h; simp [hs])
  case bne => simp only [exec, execBne, branchOn] at h; split at h <;> (cases h; simp [hs])
  case blez => simp only [exec, execBlez, branchOn] at h; split at h <;> (cases h; simp [hs])
  case bgtz => simp only [exec, execBgtz, branchOn] at h; split at h <;> (cases h; simp [hs])
  all_goals (cases h; simp [hs])

/-- Without a fatal error an instruction leaves the phase; with one the cycle is over. A halt and a fatal error exclude each other. -/
theorem Effect.ended {s t : State} (h : Effect s t) (hf : s.fault = none) (hh : s.halted = false) :
    (t.halted = true → t.fault = none) ∧ (t.fault = none → t.phase = s.phase) ∧ (t.fault ≠ none → t.phase = .ready) := by
  cases h <;> simp [hf, hh]

/-! ### The engine's part of a step -/

/-- The engine's fields after a step are those after the engine step of the same state, but for the fatal error of a peek. -/
theorem step_engine {s t : State} (h : step s = .next t) :
    (t = peekFault s ∧ peek s = none ∧ s.phase = .ready) ∨
      ∃ u, engineStep s = .next u ∧ Effect (preamble s) u ∧
        (t.mem = u.mem ∧ t.params = u.params ∧ t.halted = u.halted ∧ t.stats = u.stats ∧ t.regs = u.regs ∧ t.pc = u.pc ∧ t.ir = u.ir ∧
          t.lastWrite = u.lastWrite) ∧
        (t.fault = u.fault ∨ (u.fault = none ∧ peek u = none ∧ t = peekFault u)) := by
  obtain ⟨-, -, hc⟩ := step_cases h
  cases hc with
  | peekFirst hp hn e => exact Or.inl ⟨e, hn, hp⟩
  | first a u _ _ hu he e =>
    refine Or.inr ⟨u, hu, he, ?_⟩
    have hca := afterFirst_cases a u
    rw [← e] at hca
    cases hca with
    | peekFault _ hf _ hn => exact ⟨⟨rfl, rfl, rfl, rfl, rfl, rfl, rfl, rfl⟩, Or.inr ⟨hf, hn, rfl⟩⟩
    | _ => exact ⟨⟨rfl, rfl, rfl, rfl, rfl, rfl, rfl, rfl⟩, Or.inl rfl⟩
  | second u _ hu he e =>
    refine Or.inr ⟨u, hu, he, ?_⟩
    rcases afterSecond_cases u with ⟨-, h2⟩ | ⟨-, h2⟩ <;>
      (rw [h2] at e; subst e; exact ⟨⟨rfl, rfl, rfl, rfl, rfl, rfl, rfl, rfl⟩, Or.inl rfl⟩)

/-! ### The phase changes nothing of an engine step -/

theorem writeResult_setPhase (s : State) (p : Phase) (d : RegIdx) (v : Word) (k : StatClass) :
    writeResult (setPhase s p) d v k = setPhase (writeResult s d v k) p := by
  unfold writeResult writeReg
  split <;> rfl

theorem exec_setPhase (i : Instr) (s : State) (p : Phase) (hf : s.fault = none) :
    ∃ t, exec i s = .next t ∧
      ((t.fault = none ∧ exec i (setPhase s p) = .next (setPhase t p)) ∨ (t.fault ≠ none ∧ exec i (setPhase s p) = .next t)) := by
  cases i
  case lw rs rt imm =>
    simp only [exec, execLw, setPhase_mem, effAddr, readReg_setPhase]
    split
    · exact ⟨_, rfl, Or.inl ⟨by simpa using hf, by rw [writeResult_setPhase]⟩⟩
    · exact ⟨_, rfl, Or.inr ⟨by simp, rfl⟩⟩
  case sw rs rt imm =>
    simp only [exec, execSw, setPhase_mem, effAddr, readReg_setPhase]
    split
    · exact ⟨_, rfl, Or.inl ⟨by simpa using hf, rfl⟩⟩
    · exact ⟨_, rfl, Or.inr ⟨by simp, rfl⟩⟩
  case jal => exact ⟨_, rfl, Or.inl ⟨by simpa using hf, by simp only [exec, execJal, writeResult_setPhase]; rfl⟩⟩
  case jalr => exact ⟨_, rfl, Or.inl ⟨by simpa using hf, by simp only [exec, execJalr, writeResult_setPhase]; rfl⟩⟩
  case beq rs rt imm =>
    cases h : readReg s rs == readReg s rt <;> exact ⟨_, by simp only [exec, execBeq, branchOn, h]; rfl,
      Or.inl ⟨by simpa using hf, by simp only [exec, execBeq, branchOn, readReg_setPhase, h]; rfl⟩⟩
  case bne rs rt imm =>
    cases h : readReg s rs != readReg s rt <;> exact ⟨_, by simp only [exec, execBne, branchOn, h]; rfl,
      Or.inl ⟨by simpa using hf, by simp only [exec, execBne, branchOn, readReg_setPhase, h]; rfl⟩⟩
  case blez rs rt imm =>
    cases h : lessEqZero (readReg s rs) <;> exact ⟨_, by simp only [exec, execBlez, branchOn, h]; rfl,
      Or.inl ⟨by simpa using hf, by simp only [exec, execBlez, branchOn, readReg_setPhase, h]; rfl⟩⟩
  case bgtz rs rt imm =>
    cases h : greaterZero (readReg s rs) <;> exact ⟨_, by simp only [exec, execBgtz, branchOn, h]; rfl,
      Or.inl ⟨by simpa using hf, by simp only [exec, execBgtz, branchOn, readReg_setPhase, h]; rfl⟩⟩
  case halt => exact ⟨_, rfl, Or.inl ⟨by simpa using hf, rfl⟩⟩
  case j => exact ⟨_, rfl, Or.inl ⟨by simpa using hf, rfl⟩⟩
  case jr => exact ⟨_, rfl, Or.inl ⟨by simpa using hf, rfl⟩⟩
  all_goals exact ⟨_, rfl, Or.inl ⟨by simpa using hf, congrArg _ (writeResult_setPhase _ _ _ _ _)⟩⟩

theorem engineStep_setPhase (s : State) (p : Phase) (hf : s.fault = none) :
    ∃ t, engineStep s = .next t ∧
      ((t.fault = none ∧ engineStep (setPhase s p) = .next (setPhase t p)) ∨ (t.fault ≠ none ∧ engineStep (setPhase s p) = .next t)) := by
  cases hw : s.mem.read s.pc with
  | none =>
    refine ⟨_, engineStep_oob hw, Or.inr ⟨by simp, ?_⟩⟩
    rw [engineStep_oob (s := setPhase s p) hw]
    rfl
  | some w =>
    cases hd : decode w with
    | malformed k =>
      refine ⟨_, engineStep_malformed hw hd, Or.inr ⟨by simp, ?_⟩⟩
      rw [engineStep_malformed (s := setPhase s p) hw hd]
      rfl
    | instr i =>
      rw [engineStep_instr hw hd, engineStep_instr (s := setPhase s p) hw hd]
      exact exec_setPhase i (preamble s) p (by simpa using hf)

/-! ### The observer's counters and mask change nothing of an engine step -/

/-- The observer's counters and mask replaced: what two states of the same engine may differ in between two cycles. -/
def setObserved (s : State) (p : PipelineCounters) (m : BitVec 6) : State := { s with pipe := p, mask := m }

theorem exec_setObserved (i : Instr) (s : State) (p : PipelineCounters) (m : BitVec 6) :
    ∃ t, exec i s = .next t ∧ exec i (setObserved s p m) = .next (setObserved t p m) := by
  have hw : ∀ d v k, writeResult (setObserved s p m) d v k = setObserved (writeResult s d v k) p m := by
    intro d v k
    unfold writeResult writeReg
    split <;> rfl
  have hr : ∀ r, readReg (setObserved s p m) r = readReg s r := fun _ => rfl
  cases i
  case lw rs rt imm =>
    simp only [exec, execLw, effAddr, hr, show (setObserved s p m).mem = s.mem from rfl]
    split
    · exact ⟨_, rfl, by rw [hw]⟩
    · exact ⟨_, rfl, rfl⟩
  case sw rs rt imm =>
    simp only [exec, execSw, effAddr, hr, show (setObserved s p m).mem = s.mem from rfl]
    split <;> exact ⟨_, rfl, rfl⟩
  case beq => simp only [exec, execBeq, branchOn, hr]; split <;> exact ⟨_, rfl, rfl⟩
  case bne => simp only [exec, execBne, branchOn, hr]; split <;> exact ⟨_, rfl, rfl⟩
  case blez => simp only [exec, execBlez, branchOn, hr]; split <;> exact ⟨_, rfl, rfl⟩
  case bgtz => simp only [exec, execBgtz, branchOn, hr]; split <;> exact ⟨_, rfl, rfl⟩
  case halt => exact ⟨_, rfl, rfl⟩
  case j => exact ⟨_, rfl, rfl⟩
  case jr => exact ⟨_, rfl, rfl⟩
  case jal => exact ⟨_, rfl, by simp only [exec, execJal, hw]; rfl⟩
  case jalr => exact ⟨_, rfl, by simp only [exec, execJalr, hw]; rfl⟩
  all_goals exact ⟨_, rfl, congrArg _ (hw _ _ _)⟩

theorem engineStep_setObserved (s : State) (p : PipelineCounters) (m : BitVec 6) :
    ∃ t, engineStep s = .next t ∧ engineStep (setObserved s p m) = .next (setObserved t p m) := by
  cases hw : s.mem.read s.pc with
  | none => exact ⟨_, engineStep_oob hw, engineStep_oob (s := setObserved s p m) hw⟩
  | some w =>
    cases hd : decode w with
    | malformed k => exact ⟨_, engineStep_malformed hw hd, engineStep_malformed (s := setObserved s p m) hw hd⟩
    | instr i =>
      rw [engineStep_instr hw hd, engineStep_instr (s := setObserved s p m) hw hd]
      exact exec_setObserved i (preamble s) p m

/-! ### Counting (R105) -/

/-- An instruction counts itself, HALT sets `halted` instead, and a fatal error counts nothing. -/
theorem Effect.counted {s t : State} (h : Effect s t) (hf : s.fault = none) (hh : s.halted = false) :
    (t.fault = none → t.stats.instrCount + countIf t.halted = s.stats.instrCount + 1) ∧ (t.fault ≠ none → t.stats = s.stats) := by
  cases h with
  | result d v k => simp [hf, hh]; cases k <;> rfl
  | link d v t k => simp [hf, hh]; cases k <;> rfl
  | jump t k => simp [hf, hh]; cases k <;> rfl
  | untaken k => simp [hf, hh]; cases k <;> rfl
  | store m a v k => simp [hf, hh]; cases k <;> rfl
  | halt => simp [hf]
  | fatal r => simp

/-- A step that leaves no fatal error adds exactly 1 to `instrCount` and the HALT step together. -/
theorem step_counts {s t : State} (h : step s = .next t) (hf : t.fault = none) :
    t.stats.instrCount + countIf t.halted = s.stats.instrCount + 1 := by
  obtain ⟨hh, hs, -⟩ := step_cases h
  rcases step_engine h with ⟨e, -⟩ | ⟨u, -, he, ⟨-, -, h3, h4, -⟩, hx⟩
  · subst e
    simp [peekFault] at hf
  · have hu : u.fault = none := by
      rcases hx with hx | ⟨hx, -⟩
      · rw [← hx, hf]
      · exact hx
    rw [h3, h4]
    exact (he.counted (by simpa using hs) (by simpa using hh)).1 hu

/-! ### Fuel -/

/-- More fuel does not change how a run of issue cycles finishes. -/
theorem runCycles_succ {n : Nat} {s t : State} (h : runCycles n s = .finished t) : runCycles (n + 1) s = .finished t := by
  induction n generalizing s with
  | zero =>
    unfold runCycles at h ⊢
    split at h
    · cases h
    · rename_i hr
      rw [if_neg hr]
      exact h
  | succ n ih =>
    rw [runCycles] at h ⊢
    split at h
    · rename_i hr
      rw [if_pos hr]
      cases hc : scheduleCycle s with
      | next u =>
        simp only [hc] at h ⊢
        exact ih h
      | fault e =>
        simp only [hc] at h ⊢
        exact h
      | refused e => simp [hc] at h
    · rename_i hr
      rw [if_neg hr]
      exact h

end Sys2Proof.Machine
end

