-- ==== Sys2Proof/Tests/Slice0.lean ====
section
/-! SUPPORT. The model's own tests. Every expected value is the spec's: a worked example of the rule named, or a row of
95_test_vectors.md (L1, L2). The theorems `witness_<Name>` show states and operands that meet the hypotheses of the statement
`Obligations.<Name>`, one for each of its clauses, at boundary values. -/

namespace Sys2Proof.Tests
open Sys2Proof.Machine Sys2Proof.Stated

/-! ### The bench of 95_test_vectors.md -/

/-- The store of L2.7: 16 words, `mem[5] = 0xDEADBEEF`, `mem[15] = 0x0BADF00D`. -/
def benchMem : Memory := { len := 16, cells := [(5, 0xDEADBEEF#32), (15, 0x0BADF00D#32)] }

/-- A launch over `m` with the registers named, about to run from index `pc`. -/
def start (m : Memory) (pc : Word) (regs : List (RegIdx × Word)) : State :=
  { State.launch defaultParams m (fun r => (regs.lookup r).getD 0#32) with pc := pc }

/-- The bench with instruction word `w` at index `pc`. -/
def bench (pc w : Word) (regs : List (RegIdx × Word)) : State :=
  start { benchMem with cells := setCell benchMem.cells pc.toNat w } pc regs

/-- The program of L2.9: two words and six zero words. -/
def pair (a b : Word) : State := start (Memory.ofImage [a, b, 0, 0, 0, 0, 0, 0]) 0 []

/-- The result is a next state of which `p` holds. -/
def check (r : Result) (p : State → Bool) : Bool :=
  match r with
  | .next t => p t
  | .fault _ => false
  | .refused _ => false

theorem next_of_check {r : Result} {p : State → Bool} (h : check r p = true) : ∃ t, r = .next t ∧ p t = true := by
  cases r with
  | next t => exact ⟨t, rfl, h⟩
  | fault e => cases h
  | refused e => cases h

/-! ### Well-formedness -/

/-- R127: the fields of the all-zero word are no sll. -/
theorem test_sll_zero_refused : (Instr.sll 0 0 0 0#5).wellFormed = false := by decide

theorem test_sll_others_accepted :
    (Instr.sll 1 0 0 0#5).wellFormed = true ∧ (Instr.sll 0 1 0 0#5).wellFormed = true ∧ (Instr.sll 0 0 1 0#5).wellFormed = true ∧
      (Instr.sll 0 0 0 1#5).wellFormed = true ∧ Instr.halt.wellFormed = true := by decide

/-! ### Decoding: each word is written field by field from R71 to R73 and the numbers of R78 and R79 -/

/-- `{opcode, rs, rt, rd, shamt, funct}` under opcode 0. -/
theorem test_decode_special :
    decode (0b000000#6 ++ 0b00101#5 ++ 0b00010#5 ++ 0b00001#5 ++ 0b00100#5 ++ 0b000000#6) = .instr (.sll 5 2 1 4#5) ∧
    decode (0b000000#6 ++ 0b00000#5 ++ 0b00010#5 ++ 0b00001#5 ++ 0b00100#5 ++ 0b000010#6) = .instr (.srl 0 2 1 4#5) ∧
    decode (0b000000#6 ++ 0b00000#5 ++ 0b00010#5 ++ 0b00001#5 ++ 0b11111#5 ++ 0b000011#6) = .instr (.sra 0 2 1 31#5) ∧
    decode (0b000000#6 ++ 0b11111#5 ++ 0b00000#5 ++ 0b00101#5 ++ 0b00000#5 ++ 0b001000#6) = .instr (.jr 31 0 5 0#5) ∧
    decode (0b000000#6 ++ 0b00101#5 ++ 0b00000#5 ++ 0b11111#5 ++ 0b00000#5 ++ 0b001001#6) = .instr (.jalr 5 0 31 0#5) ∧
    decode (0b000000#6 ++ 0b00010#5 ++ 0b00011#5 ++ 0b00001#5 ++ 0b00011#5 ++ 0b100001#6) = .instr (.addu 2 3 1 3#5) ∧
    decode (0b000000#6 ++ 0b00010#5 ++ 0b00011#5 ++ 0b00001#5 ++ 0b00000#5 ++ 0b100011#6) = .instr (.subu 2 3 1 0#5) ∧
    decode (0b000000#6 ++ 0b00010#5 ++ 0b00011#5 ++ 0b00001#5 ++ 0b00000#5 ++ 0b100100#6) = .instr (.and 2 3 1 0#5) ∧
    decode (0b000000#6 ++ 0b00010#5 ++ 0b00011#5 ++ 0b00001#5 ++ 0b00000#5 ++ 0b100101#6) = .instr (.or 2 3 1 0#5) ∧
    decode (0b000000#6 ++ 0b00010#5 ++ 0b00011#5 ++ 0b00001#5 ++ 0b00000#5 ++ 0b100110#6) = .instr (.xor 2 3 1 0#5) ∧
    decode (0b000000#6 ++ 0b00010#5 ++ 0b00011#5 ++ 0b00001#5 ++ 0b00000#5 ++ 0b100111#6) = .instr (.nor 2 3 1 0#5) := by decide

/-- The all-zero word (R82), and mul (R83). -/
theorem test_decode_halt_mul :
    decode (0b000000#6 ++ 0b00000#5 ++ 0b00000#5 ++ 0b00000#5 ++ 0b00000#5 ++ 0b000000#6) = .instr .halt ∧
    decode (0b011100#6 ++ 0b00010#5 ++ 0b00011#5 ++ 0b00001#5 ++ 0b00000#5 ++ 0b000010#6) = .instr (.mul 2 3 1 0#5) := by decide

/-- `{opcode, target26}`. -/
theorem test_decode_jump :
    decode (0b000010#6 ++ 0b00000000000000000000000101#26) = .instr (.j 5#26) ∧
    decode (0b000011#6 ++ 0b11111111111111111111111110#26) = .instr (.jal 0x3FFFFFE#26) := by decide

/-- `{opcode, rs, rt, imm16}`. -/
theorem test_decode_immediate :
    decode (0b000100#6 ++ 0b00001#5 ++ 0b00010#5 ++ 0b1111111111111110#16) = .instr (.beq 1 2 0xFFFE#16) ∧
    decode (0b000101#6 ++ 0b00001#5 ++ 0b00010#5 ++ 0b0000000000000011#16) = .instr (.bne 1 2 3#16) ∧
    decode (0b000110#6 ++ 0b00010#5 ++ 0b00001#5 ++ 0b0000000000000000#16) = .instr (.blez 2 1 0#16) ∧
    decode (0b000111#6 ++ 0b00001#5 ++ 0b00000#5 ++ 0b0000000000000010#16) = .instr (.bgtz 1 0 2#16) ∧
    decode (0b001001#6 ++ 0b00010#5 ++ 0b00001#5 ++ 0b1111111111111111#16) = .instr (.addiu 2 1 0xFFFF#16) ∧
    decode (0b001010#6 ++ 0b00010#5 ++ 0b00001#5 ++ 0b1000000000000000#16) = .instr (.slti 2 1 0x8000#16) ∧
    decode (0b001110#6 ++ 0b00010#5 ++ 0b00001#5 ++ 0b1000000000000000#16) = .instr (.xori 2 1 0x8000#16) ∧
    decode (0b001111#6 ++ 0b00011#5 ++ 0b00001#5 ++ 0b0000000010101011#16) = .instr (.lui 3 1 0xAB#16) ∧
    decode (0b100011#6 ++ 0b00010#5 ++ 0b00001#5 ++ 0b1111111111111101#16) = .instr (.lw 2 1 0xFFFD#16) ∧
    decode (0b101011#6 ++ 0b00010#5 ++ 0b00001#5 ++ 0b1111111111111111#16) = .instr (.sw 2 1 0xFFFF#16) := by decide

/-- L2.1, the malformed rows. -/
theorem test_decode_malformed :
    decode 0x00430820#32 = .malformed .unknownFunct ∧ decode 0x0000000C#32 = .malformed .unknownFunct ∧
    decode 0x00000020#32 = .malformed .unknownFunct ∧ decode 0x20410001#32 = .malformed .unknownOpcode ∧
    decode 0x34410001#32 = .malformed .unknownOpcode ∧ decode 0x04010001#32 = .malformed .unknownOpcode ∧
    decode 0x80410000#32 = .malformed .unknownOpcode ∧ decode 0xFC000000#32 = .malformed .unknownOpcode ∧
    decode 0x70430800#32 = .malformed .badMulFunct ∧ decode 0x70A62018#32 = .malformed .badMulFunct := by decide

/-- L2.1, the rows about words beside HALT and ignored fields. -/
theorem test_decode_neighbours :
    decode 0x00000040#32 = .instr (.sll 0 0 0 1#5) ∧ decode 0x00200000#32 = .instr (.sll 1 0 0 0#5) ∧
    decode 0x00000008#32 = .instr (.jr 0 0 0 0#5) := by decide

/-- The opcode table's numbering: bit 0 is the least significant bit of the one word. -/
theorem test_table_word : decodeTableWord 32 0x00430821 = some (.addu 2 3 1 0#5) ∧ decodeTableWord 32 0x00000020 = none := by decide

/-! ### One step of each instruction (L2.2 to L2.7) -/

-- R103, L1.1
theorem test_halt :
    check (step (bench 0 0x00000000#32 [])) (fun t =>
      t.halted && t.ir == 0#32 && t.pc == 1#32 && t.lastWrite == none && t.fault == none && t.mask == 0x20#6 && t.pipe.issueCycles
        == 1 && t.stats == (State.reset).stats) = true := by decide

theorem test_addu_wraps :
    check (step (bench 0 0x00430821#32 [(2, 0x7FFFFFFF#32), (3, 1#32)])) (fun t =>
      readReg t 1 == 0x80000000#32 && t.pc == 1#32 && t.lastWrite == some 1 && t.stats.instrCount == 1 && t.stats.aluCount == 1) =
        true := by decide

/-- L1.4. -/
theorem test_addu_into_zero :
    check (step (bench 0 0x00430021#32 [(2, 5#32), (3, 6#32)])) (fun t =>
      readReg t 0 == 0#32 && t.pc == 1#32 && t.lastWrite == some 0 && t.stats.instrCount == 1 && t.stats.aluCount == 1) = true := by
        decide

theorem test_addu_doubles :
    check (step (bench 0 0x00210821#32 [(1, 0x40000001#32)])) (fun t =>
      readReg t 1 == 0x80000002#32) = true := by decide

theorem test_subu_wraps :
    check (step (bench 0 0x00430823#32 [(2, 0#32), (3, 1#32)])) (fun t =>
      readReg t 1 == 0xFFFFFFFF#32 && t.lastWrite == some 1 && t.stats.instrCount == 1 && t.stats.aluCount == 1) = true := by decide

theorem test_subu_order :
    check (step (bench 0 0x00430823#32 [(2, 0x80000000#32), (3, 1#32)])) (fun t =>
      readReg t 1 == 0x7FFFFFFF#32) = true := by decide

theorem test_and :
    check (step (bench 0 0x00430824#32 [(2, 0xF0F0F0F0#32), (3, 0xFF00FF00#32)])) (fun t =>
      readReg t 1 == 0xF000F000#32 && t.lastWrite == some 1 && t.stats.instrCount == 1 && t.stats.aluCount == 1) = true := by decide

theorem test_or :
    check (step (bench 0 0x00430825#32 [(2, 0xF0F0F0F0#32), (3, 0x0F0F0000#32)])) (fun t =>
      readReg t 1 == 0xFFFFF0F0#32 && t.lastWrite == some 1 && t.stats.instrCount == 1 && t.stats.aluCount == 1) = true := by decide

theorem test_xor :
    check (step (bench 0 0x00430826#32 [(2, 0xFFFF0000#32), (3, 0xFF00FF00#32)])) (fun t =>
      readReg t 1 == 0x00FFFF00#32 && t.lastWrite == some 1 && t.stats.instrCount == 1 && t.stats.aluCount == 1) = true := by decide

theorem test_nor :
    check (step (bench 0 0x00430827#32 [(2, 0xF0F0F0F0#32), (3, 0x0F0F0000#32)])) (fun t =>
      readReg t 1 == 0x00000F0F#32 && t.lastWrite == some 1 && t.stats.instrCount == 1 && t.stats.aluCount == 1) = true := by decide

/-- R127's example, with rs = 5 ignored. -/
theorem test_sll :
    check (step (bench 0 0x00A20900#32 [(2, 0x80000001#32), (5, 9#32)])) (fun t =>
      readReg t 1 == 0x00000010#32 && t.lastWrite == some 1 && t.stats.instrCount == 1 && t.stats.aluCount == 1) = true := by decide

theorem test_sll_31 : check (step (bench 0 0x00020FC0#32 [(2, 3#32)])) (fun t => readReg t 1 == 0x80000000#32) = true := by decide

theorem test_srl :
    check (step (bench 0 0x00020902#32 [(2, 0x80000000#32)])) (fun t =>
      readReg t 1 == 0x08000000#32 && t.lastWrite == some 1 && t.stats.instrCount == 1 && t.stats.aluCount == 1) = true := by decide

theorem test_srl_31 : check (step (bench 0 0x00020FC2#32 [(2, 0xFFFFFFFF#32)])) (fun t => readReg t 1 == 0x00000001#32) = true := by decide

theorem test_sra :
    check (step (bench 0 0x00020903#32 [(2, 0x80000000#32)])) (fun t =>
      readReg t 1 == 0xF8000000#32 && t.lastWrite == some 1 && t.stats.instrCount == 1 && t.stats.aluCount == 1) = true := by decide

theorem test_sra_positive :
    check (step (bench 0 0x00020903#32 [(2, 0x7FFFFFF0#32)])) (fun t =>
      readReg t 1 == 0x07FFFFFF#32) = true := by decide

theorem test_mul :
    check (step (bench 0 0x70430802#32 [(2, 0x00012345#32), (3, 0x00006789#32)])) (fun t =>
      readReg t 1 == 0x75CCA2ED#32 && t.lastWrite == some 1 && t.stats.instrCount == 1 && t.stats.aluCount == 1) = true := by decide

theorem test_mul_signs :
    check (step (bench 0 0x70430802#32 [(2, 0xFFFFFFFD#32), (3, 5#32)])) (fun t =>
      readReg t 1 == 0xFFFFFFF1#32) = true := by decide

/-- L1.5. -/
theorem test_addiu_minus_one :
    check (step (bench 0 0x2441FFFF#32 [(2, 5#32)])) (fun t =>
      readReg t 1 == 4#32 && t.lastWrite == some 1 && t.pc == 1#32 && t.stats.instrCount == 1 && t.stats.aluCount == 1) = true := by
        decide

theorem test_addiu_sign_extends : check (step (bench 0 0x24418000#32 [])) (fun t => readReg t 1 == 0xFFFF8000#32) = true := by decide

theorem test_slti_least :
    check (step (bench 0 0x28418000#32 [(2, 0x80000000#32)])) (fun t =>
      readReg t 1 == 1#32 && t.lastWrite == some 1 && t.stats.instrCount == 1 && t.stats.aluCount == 1) = true := by decide

theorem test_slti_equal : check (step (bench 0 0x28418000#32 [(2, 0xFFFF8000#32)])) (fun t => readReg t 1 == 0#32) = true := by decide

theorem test_xori_zero_extends :
    check (step (bench 0 0x38418000#32 [])) (fun t =>
      readReg t 1 == 0x00008000#32 && t.lastWrite == some 1 && t.stats.instrCount == 1 && t.stats.aluCount == 1) = true := by decide

theorem test_xori_upper_half :
    check (step (bench 0 0x3841FFFF#32 [(2, 0x12345678#32)])) (fun t =>
      readReg t 1 == 0x1234A987#32) = true := by decide

/-- L1.6. -/
theorem test_lui :
    check (step (bench 0 0x3C0100AB#32 [(1, 0xFFFFFFFF#32)])) (fun t =>
      readReg t 1 == 0x00AB0000#32 && t.lastWrite == some 1 && t.stats.instrCount == 1 && t.stats.aluCount == 1) = true := by decide

theorem test_lui_ignores_rs :
    check (step (bench 0 0x3C610001#32 [(3, 0xFFFF#32)])) (fun t =>
      readReg t 1 == 0x00010000#32) = true := by decide

theorem test_j :
    check (step (bench 0 0x0BFFFFFF#32 [])) (fun t =>
      t.pc == 0x03FFFFFF#32 && t.lastWrite == none && t.stats.instrCount == 1 && t.stats.jumpCount == 1) = true := by decide

theorem test_jal :
    check (step (bench 3 0x0C00000A#32 [])) (fun t =>
      t.pc == 10#32 && readReg t 31 == 4#32 && t.lastWrite == some 31 && t.stats.instrCount == 1 && t.stats.jalCount == 1) = true :=
        by decide

theorem test_jr :
    check (step (bench 3 0x03E00008#32 [(31, 4#32)])) (fun t =>
      t.pc == 4#32 && t.lastWrite == none && t.stats.instrCount == 1 && t.stats.jumpCount == 1) = true := by decide

/-- R144's example. -/
theorem test_jalr_same_register :
    check (step (bench 7 0x00A02809#32 [(5, 20#32)])) (fun t =>
      t.pc == 20#32 && readReg t 5 == 8#32 && t.lastWrite == some 5 && t.stats.instrCount == 1 && t.stats.jalCount == 1) = true :=
        by decide

theorem test_jalr_link :
    check (step (bench 7 0x00A0F809#32 [(5, 20#32)])) (fun t =>
      t.pc == 20#32 && readReg t 31 == 8#32 && t.lastWrite == some 31) = true := by decide

theorem test_beq_taken :
    check (step (bench 10 0x1022FFFE#32 [(1, 7#32), (2, 7#32)])) (fun t =>
      t.pc == 9#32 && t.lastWrite == none && t.stats.instrCount == 1 && t.stats.branchTakenCount == 1) = true := by decide

/-- R146's example with BRANCH_BASE = 0. -/
theorem test_beq_base_zero :
    check (step ({ bench 10 0x1022FFFE#32 [(1, 7#32), (2, 7#32)] with params := { defaultParams with branchBase := 0 } })) (fun t =>
      t.pc == 8#32) = true := by decide

theorem test_bne_taken :
    check (step (bench 4 0x14220003#32 [(1, 1#32), (2, 2#32)])) (fun t =>
      t.pc == 8#32 && t.stats.instrCount == 1 && t.stats.branchTakenCount == 1) = true := by decide

theorem test_bne_untaken :
    check (step (bench 1 0x14210005#32 [(1, 3#32)])) (fun t =>
      t.pc == 2#32 && t.stats.instrCount == 1 && t.stats.branchUntakenCount == 1) = true := by decide

theorem test_blez_negative :
    check (step (bench 0 0x18200002#32 [(1, 0x80000000#32)])) (fun t =>
      t.pc == 3#32 && t.stats.branchTakenCount == 1) = true := by decide

theorem test_blez_one :
    check (step (bench 0 0x18200002#32 [(1, 1#32)])) (fun t =>
      t.pc == 1#32 && t.stats.branchUntakenCount == 1) = true := by decide

theorem test_bgtz_positive :
    check (step (bench 0 0x1C200002#32 [(1, 0x7FFFFFFF#32)])) (fun t =>
      t.pc == 3#32 && t.stats.branchTakenCount == 1) = true := by decide

theorem test_bgtz_negative :
    check (step (bench 0 0x1C200002#32 [(1, 0x80000000#32)])) (fun t =>
      t.pc == 1#32 && t.stats.branchUntakenCount == 1) = true := by decide

theorem test_lw_old_base :
    check (step (bench 0 0x8C420002#32 [(2, 3#32)])) (fun t =>
      readReg t 2 == 0xDEADBEEF#32 && t.lastWrite == some 2 && t.stats.instrCount == 1 && t.stats.loadCount == 1) = true := by
        decide

theorem test_lw_out_of_bounds :
    check (step (bench 0 0x8C010010#32 [(1, 9#32)])) (fun t =>
      t.fault == some { kind := .oobLoad, addr := 0#32, word := some 0x8C010010#32, ea := some 16#32 } && t.stats ==
        (State.reset).stats) = true := by decide

theorem test_sw :
    check (step (bench 0 0xAC41FFFF#32 [(2, 5#32), (1, 0x12345678#32)])) (fun t =>
      t.mem.read 4#32 == some 0x12345678#32 && t.mem.read 5#32 == some 0xDEADBEEF#32 && t.lastWrite == none && t.stats.instrCount ==
        1 && t.stats.storeCount == 1) = true := by decide

theorem test_sw_out_of_bounds :
    check (step (bench 0 0xAC010010#32 [(1, 7#32)])) (fun t =>
      t.fault == some { kind := .oobStore, addr := 0#32, word := some 0xAC010010#32, ea := some 16#32 } && t.stats ==
        (State.reset).stats) = true := by decide

/-! ### The observer (L2.8, L2.9): the mask of the first cycle -/

/-- `mem-mem`, `mul-mul`, a multiply beside a word of its opcode, and the overlap. -/
theorem test_structural :
    check (step (pair 0x8C010004#32 0xAC020005#32)) (fun t => t.mask == 0x04#6 && t.pipe.overlaps == 0 && t.pc == 1#32) = true ∧
    check (step (pair 0x70430802#32 0x70A62018#32)) (fun t => t.mask == 0x04#6) = true ∧
    check (step (pair 0x8C010004#32 0x8C220000#32)) (fun t => t.mask == 0x14#6 && t.pipe.overlaps == 1) = true ∧
    check (step (pair 0x70430802#32 0x70262002#32)) (fun t => t.mask == 0x14#6) = true := by decide

/-- L2.9's row of the malformed multiply, which reads {5, 6} (R176, log 25). -/
theorem test_reads_malformed_mul :
    reads defaultParams 0x70A62018#32 = [5, 6] ∧ reads defaultParams 0x00000020#32 = [] ∧ reads defaultParams 0xFC000000#32 = [] := by
  decide

theorem test_data :
    check (step (pair 0x00430821#32 0x24240001#32)) (fun t => t.mask == 0x08#6 && t.pipe.dataStops == 1) = true ∧
    check (step (pair 0x00430821#32 0xAC010005#32)) (fun t => t.mask == 0x08#6) = true ∧
    check (step (pair 0x24040001#32 0x00020900#32)) (fun t => t.mask == 0x08#6) = true ∧
    check (step (pair 0x00000040#32 0x24010001#32)) (fun t => t.mask == 0x08#6) = true := by decide

theorem test_dual :
    check (scheduleCycle (pair 0x70430802#32 0x8C040004#32)) (fun t => t.mask == 0x01#6 && t.pipe.doubleIssues == 1) = true ∧
    check (scheduleCycle (pair 0x24010001#32 0x18410000#32)) (fun t => t.mask == 0x01#6) = true ∧
    check (scheduleCycle (pair 0x24030001#32 0x3C6100AB#32)) (fun t => t.mask == 0x01#6) = true ∧
    check (scheduleCycle (pair 0x24010001#32 0x0C000000#32)) (fun t => t.mask == 0x01#6 && t.pc == 0#32 && readReg t 31 == 2#32) = true ∧
    check (scheduleCycle (pair 0x24010001#32 0x00000000#32)) (fun t => t.mask == 0x01#6 && t.halted) = true := by decide

/-- The parameter variants of L2.9. -/
theorem test_observer_parameters :
    check (scheduleCycle { pair 0x24040001#32 0x00020900#32 with params := { defaultParams with shiftExtraRead := .none } })
      (fun t => t.mask == 0x01#6) = true ∧
    check (scheduleCycle { pair 0x24040001#32 0x00020900#32 with params := { defaultParams with shiftExtraRead := .rs } })
      (fun t => t.mask == 0x01#6) = true ∧
    check (scheduleCycle { pair 0x24030001#32 0x3C6100AB#32 with params := { defaultParams with luiReadsRs := true } })
      (fun t => t.mask == 0x08#6) = true ∧
    check (scheduleCycle { pair 0x00000040#32 0x24010001#32 with params := { defaultParams with r0WriteRecorded := false } })
      (fun t => t.mask == 0x01#6) = true := by decide

theorem test_control :
    check (step (pair 0x10000000#32 0x24010001#32)) (fun t => t.mask == 0x02#6 && t.pc == 1#32) = true ∧
    check (step (pair 0x14000005#32 0x24010001#32)) (fun t => t.mask == 0x02#6 && t.pc == 1#32) = true ∧
    check (step (pair 0x08000001#32 0x24010001#32)) (fun t => t.mask == 0x02#6) = true := by decide

/-- L2.9's pair whose second instruction faults: no tally, the first instruction's counts stay. -/
theorem test_second_faults :
    check (scheduleCycle (pair 0x24010001#32 0x00000020#32)) (fun t =>
      t.fault == some { kind := .unknownFunct, addr := 1#32, word := some 0x00000020#32, ea := none } && t.mask == 0x00#6 &&
        t.pipe == (State.reset).pipe && t.stats.instrCount == 1 && t.stats.aluCount == 1) = true := by decide

/-- P5's first cycle: the store is seen by the peek and the fetch that follow it. -/
theorem test_store_then_fetch :
    check (scheduleCycle (start (Memory.ofImage [0xAC030001#32, 0x24010001#32, 0x00000000#32, 0x00000000#32]) 0 [(3, 0x24020007#32)]))
      (fun t => t.mask == 0x01#6 && readReg t 2 == 7#32 && readReg t 1 == 0#32 && t.mem.read 1#32 == some 0x24020007#32) = true := by
  decide

/-- A run under fuel: HALT ends it, and a `j` to itself is not finished, never halted (P11). -/
theorem test_runs :
    (match runCycles 9 (pair 0x00000000#32 0x24010001#32) with
      | .finished t => t.halted && t.pipe.issueCycles == 1
      | .notFinished _ => false
      | .refused _ => false) = true ∧
    (match runCycles 3 (start (Memory.ofImage [0x08000000#32]) 0 []) with
      | .notFinished t => t.pipe.controlStops == 3 && t.stats.jumpCount == 3
      | .finished _ => false
      | .refused _ => false) = true := by decide

/-- A word placed where the reset machine fetches runs first. -/
theorem test_placed_word :
    check (step (State.reset.withFetchWord 32 0x2401FFFF)) (fun t => readReg t 1 == 0xFFFFFFFF#32 && t.stats.aluCount == 1) = true := by
  decide

/-! ### Witnesses: launch, encoding, registers, memory -/

theorem witness_LaunchGivesResetValues :
    (State.launch defaultParams (Memory.ofImage [0x24010005#32, 0x00000000#32]) (fun _ => 7#32)).mem.read 1#32 = some 0x00000000#32 ∧
    readReg (State.launch defaultParams (Memory.ofImage [0x24010005#32, 0x00000000#32]) (fun _ => 7#32)) 31 = 7#32 := by decide

theorem witness_ResetTakesTheModelsLaunchValues :
    State.reset.mem.read 0x7FFFFFFF#32 = some 0#32 ∧ State.reset.mem.read 0x80000000#32 = none := by decide

theorem witness_EncodeThenDecodeIsIdentity :
    (Instr.sll 0 0 0 1#5).wellFormed = true ∧ (Instr.jalr 31 31 31 31#5).wellFormed = true ∧ (Instr.jal 0x3FFFFFF#26).wellFormed = true ∧
    (Instr.sw 31 31 0xFFFF#16).wellFormed = true := by decide

theorem witness_DecodeThenEncodeIsIdentity :
    decode 0x00000001#32 ≠ .instr .halt ∧ decode 0x00000040#32 = .instr (.sll 0 0 0 1#5) ∧ decode 0xAFFFFFFF#32 = .instr (.sw 31 31 0xFFFF#16) :=
  by decide

/-- The cells `(0, 1), (14, 2)` keep the canonical form; both ends of the store are in bounds, MEMLEN is not. -/
theorem witness_MemoryReadsTheLatestWrite :
    benchMem.wf ∧ (benchMem.write 0#32 0xFFFFFFFF#32).isSome = true ∧ (benchMem.write 15#32 0x00000000#32).isSome = true ∧
    benchMem.read 15#32 ≠ none ∧ benchMem.read 16#32 = none ∧ (benchMem.write 16#32 1#32).isSome = false := by decide

theorem witness_RegisterZeroIsHardWired :
    ((31 : RegIdx) ≠ 0) ∧ ((0 : RegIdx) ≠ 31) ∧ State.reset.params.r0WriteRecorded = true ∧
    ({ State.reset with params := { defaultParams with r0WriteRecorded := false } }).params.r0WriteRecorded = false := by decide

/-! ### Witnesses: instructions -/

theorem witness_SllShiftsLeftByShamt :
    rFormat 0x00#6 0 0 0 1#5 0x00#6 ≠ 0x00000000#32 ∧ rFormat 0x00#6 1 0 0 0#5 0x00#6 ≠ 0x00000000#32 := by decide

theorem witness_BeqBranchesOnEqual :
    readReg (bench 10 0x1022FFFE#32 [(1, 7#32), (2, 7#32)]) 1 = readReg (bench 10 0x1022FFFE#32 [(1, 7#32), (2, 7#32)]) 2 ∧
    ¬readReg (bench 1 0x10220005#32 [(1, 1#32), (2, 2#32)]) 1 = readReg (bench 1 0x10220005#32 [(1, 1#32), (2, 2#32)]) 2 := by decide

theorem witness_BneBranchesOnNotEqual :
    readReg (bench 4 0x14220003#32 [(1, 1#32), (2, 2#32)]) 1 ≠ readReg (bench 4 0x14220003#32 [(1, 1#32), (2, 2#32)]) 2 ∧
    ¬readReg (bench 1 0x14210005#32 [(1, 3#32)]) 1 ≠ readReg (bench 1 0x14210005#32 [(1, 3#32)]) 1 := by decide

theorem witness_BlezBranchesOnNotPositive :
    (readReg (bench 0 0x18200002#32 [(1, 0#32)]) 1).toInt ≤ 0 ∧ ¬(readReg (bench 0 0x18200002#32 [(1, 1#32)]) 1).toInt ≤ 0 := by decide

theorem witness_BgtzBranchesOnPositive :
    0 < (readReg (bench 0 0x1C200002#32 [(1, 1#32)]) 1).toInt ∧ ¬0 < (readReg (bench 0 0x1C200002#32 [(1, 0#32)]) 1).toInt := by decide

/-- The last word of the store, and the first index past it. -/
theorem witness_LwLoadsOrFaults :
    (wordIndex (bench 0 0x8C01000F#32 []) 0 15#16).toNat < (bench 0 0x8C01000F#32 []).mem.len ∧
    (bench 0 0x8C010010#32 []).mem.len ≤ (wordIndex (bench 0 0x8C010010#32 []) 0 16#16).toNat := by decide

/-- Index 0, reached by a negative offset, and index 0xFFFFFFFF. -/
theorem witness_SwStoresOrFaults :
    (wordIndex (bench 0 0xAC41FFFF#32 [(2, 1#32)]) 2 0xFFFF#16).toNat < (bench 0 0xAC41FFFF#32 [(2, 1#32)]).mem.len ∧
    (bench 0 0xAC01FFFF#32 []).mem.len ≤ (wordIndex (bench 0 0xAC01FFFF#32 []) 0 0xFFFF#16).toNat := by decide

/-! ### Witnesses: the step -/

/-- The three arms: out of bounds, an instruction, a malformed word. -/
theorem witness_EngineStepFollowsTheSequence :
    (start benchMem 16 []).mem.read 16#32 = none ∧ (start benchMem 15 []).mem.read 15#32 = some 0x0BADF00D#32 ∧
    decode 0x0BADF00D#32 = .instr (.j 0x3ADF00D#26) ∧ (start benchMem 5 []).mem.read 5#32 = some 0xDEADBEEF#32 ∧
    decode 0xDEADBEEF#32 = .malformed .unknownOpcode := by decide

theorem witness_StepRunsDecodedInstruction :
    (bench 0 0x00430821#32 []).halted = false ∧ (bench 0 0x00430821#32 []).fault = none ∧
    (bench 0 0x00430821#32 []).mem.read (bench 0 0x00430821#32 []).pc = some 0x00430821#32 ∧
    decode 0x00430821#32 = .instr (.addu 2 3 1 0#5) ∧ (bench 0 0x00430821#32 []).phase = .ready ∧
    (setPhase (bench 0 0x00430821#32 []) .execB).phase = .execB := by decide

theorem witness_PlacedWordIsWhatRunsNext :
    decodeTableWord 32 0x00430821 = some (.addu 2 3 1 0#5) ∧ running (start benchMem 15 []) = true ∧
    (start benchMem 15 []).pc.toNat < (start benchMem 15 []).mem.len := by decide

theorem witness_StepsStartExactlyWhileRunning :
    (setHalted State.reset).halted = true ∧ (raiseFatal State.reset (fetchFault 0#32)).halted = false ∧
    (raiseFatal State.reset (fetchFault 0#32)).fault = some (fetchFault 0#32) ∧ State.reset.halted = false ∧ State.reset.fault = none := by
  decide

/-- In phase READY and in phase EXEC_B, and one word of each kind. -/
theorem witness_MalformedWordIsFatalWhenExecuted :
    (bench 0 0x00430820#32 []).halted = false ∧ (bench 0 0x00430820#32 []).fault = none ∧
    (bench 0 0x00430820#32 []).mem.read (bench 0 0x00430820#32 []).pc = some 0x00430820#32 ∧
    decode 0x00430820#32 = .malformed .unknownFunct ∧ decode 0x20410001#32 = .malformed .unknownOpcode ∧
    decode 0x70430800#32 = .malformed .badMulFunct ∧ (bench 0 0x00430820#32 []).phase = .ready ∧
    (setPhase (bench 0 0x00430820#32 []) .execB).phase = .execB ∧ (setPhase (bench 0 0x00430820#32 []) .execB).halted = false ∧
    (setPhase (bench 0 0x00430820#32 []) .execB).fault = none ∧
    (setPhase (bench 0 0x00430820#32 []) .execB).mem.read (setPhase (bench 0 0x00430820#32 []) .execB).pc = some 0x00430820#32 := by decide

theorem witness_PeekOutOfBoundsIsFatal :
    (start benchMem 16 []).halted = false ∧ (start benchMem 16 []).fault = none ∧ (start benchMem 16 []).phase = .ready ∧
    (start benchMem 16 []).mem.len ≤ (start benchMem 16 []).pc.toNat := by decide

/-- One state for each row of R202, and one that raises nothing. -/
theorem witness_FatalErrorsAreExactlyTheListed :
    (start benchMem 16 []).fault = none ∧ check (engineStep (start benchMem 16 [])) (fun t => t.fault == some (fetchFault 16#32)) = true ∧
    check (engineStep (bench 0 0x20410001#32 [])) (fun t => t.fault.isSome) = true ∧
    check (engineStep (bench 0 0x00430820#32 [])) (fun t => t.fault.isSome) = true ∧
    check (engineStep (bench 0 0x70430800#32 [])) (fun t => t.fault.isSome) = true ∧
    check (engineStep (bench 0 0x8C010010#32 [])) (fun t => t.fault.isSome) = true ∧
    check (engineStep (bench 0 0xAC010010#32 [])) (fun t => t.fault.isSome) = true ∧
    check (engineStep (bench 0 0x8C01000F#32 [])) (fun t => t.fault.isNone) = true := by decide

/-- A step that faults with its counters kept, and one whose second peek faults after its first instruction was counted. -/
theorem witness_FatalErrorLeavesTheCounters :
    check (step (bench 0 0x8C010010#32 [])) (fun t => t.fault.isSome && t.stats == (State.reset).stats) = true ∧
    check (step (bench 15 0x00430821#32 [])) (fun t => t.fault == some (fetchFault 16#32) && t.stats.aluCount == 1) = true := by decide

/-! ### Witnesses: the whole machine -/

theorem stateInv_bench : StateInv (bench 0 0xAC41FFFF#32 [(2, 5#32)]) where
  memory := by decide
  slotZero := by decide
  haltedEnd := by decide
  faultedEnd := by decide
  secondPeeked := by decide

theorem witness_EveryStepKeepsTheStateInvariant :
    ∃ s t, StateInv s ∧ step s = .next t ∧ t.stats.storeCount = 1 := by
  obtain ⟨t, h, hp⟩ := next_of_check (r := step (bench 0 0xAC41FFFF#32 [(2, 5#32)])) (p := fun t => t.stats.storeCount == 1) (by decide)
  exact ⟨_, t, stateInv_bench, h, by simpa using hp⟩

theorem witness_LaunchMeetsTheStateInvariant : benchMem.wf ∧ [0x24010005#32, 0x00000000#32].length ≤ 2 ^ 31 := by decide

theorem counterInv_bench : CounterInv (bench 0 0xAC41FFFF#32 [(2, 5#32)]) where
  classes := by decide
  steps := by decide
  stops := by decide
  overlaps := by decide
  maskRange := by decide
  maskFresh := by decide
  haltAlone := by decide

theorem witness_EveryStepKeepsTheCounterIdentities :
    ∃ s t, CounterInv s ∧ step s = .next t ∧ t.stats.instrCount = 1 := by
  obtain ⟨t, h, hp⟩ := next_of_check (r := step (bench 0 0xAC41FFFF#32 [(2, 5#32)])) (p := fun t => t.stats.instrCount == 1) (by decide)
  exact ⟨_, t, counterInv_bench, h, by simpa using hp⟩

/-- A launch of `addiu $1,$0,1; HALT` for any REG_INIT that halts after two steps, here the zero one. -/
theorem witness_RunCountsEveryStep :
    ∃ s t, cleanLaunch defaultParams [0x24010001#32, 0x00000000#32] s ∧ stepN 2 s = .next t ∧ t.fault = none ∧ t.halted = true := by
  obtain ⟨t, h, hp⟩ := next_of_check
    (r := stepN 2 (State.launch defaultParams (Memory.ofImage [0x24010001#32, 0x00000000#32]) resetRegInit))
    (p := fun t => decide (t.fault = none ∧ t.halted = true)) (by decide)
  exact ⟨_, t, ⟨⟨resetRegInit, rfl⟩, rfl, rfl, rfl, rfl, rfl, rfl⟩, h, of_decide_eq_true hp⟩

/-- A launch that ends at HALT alone, in one step (L1.1). -/
theorem witness_RunCountsEveryStep_haltAlone :
    ∃ s t, cleanLaunch defaultParams [0x00000000#32] s ∧ stepN 1 s = .next t ∧ t.fault = none ∧ t.halted = true ∧ t.mask = 0x20#6 := by
  obtain ⟨t, h, hp⟩ := next_of_check (r := stepN 1 (State.launch defaultParams (Memory.ofImage [0x00000000#32]) resetRegInit))
    (p := fun t => decide (t.fault = none ∧ t.halted = true ∧ t.mask = 0x20#6)) (by decide)
  exact ⟨_, t, ⟨⟨resetRegInit, rfl⟩, rfl, rfl, rfl, rfl, rfl, rfl⟩, h, of_decide_eq_true hp⟩

/-- The exec clause and the step clause. -/
theorem witness_CountersOnlyGrow :
    check (exec (.mul 2 3 1 0#5) State.reset) (fun t => t.stats.aluCount == 1) = true ∧
    check (step (pair 0x8C010004#32 0x8C220000#32)) (fun t => t.pipe.overlaps == 1 && t.stats.loadCount == 1) = true := by decide

theorem witness_StepKeepsMemLenAndParameters :
    check (step (bench 0 0xAC41FFFF#32 [(2, 5#32)])) (fun t => (t.mem.read 15#32).isSome && (t.mem.read 16#32).isNone) = true := by decide

/-- An instruction that is no sw, and a step that changes a word. -/
theorem witness_OnlyStoresChangeMemory :
    (∀ rs rt imm, Instr.lw 0 1 5#16 ≠ .sw rs rt imm) ∧ check (exec (.lw 0 1 5#16) (bench 0 0#32 [])) (fun _ => true) = true ∧
    check (step (bench 0 0xAC41FFFF#32 [(2, 5#32), (1, 1#32)]))
      (fun t => t.mem.read 4#32 != (bench 0 0xAC41FFFF#32 [(2, 5#32), (1, 1#32)]).mem.read 4#32) = true := by
  exact ⟨fun _ _ _ h => (nomatch h), by decide, by decide⟩

/-- A word that is no transfer, and each kind of transfer. -/
theorem witness_OnlyTransfersRedirectPc :
    (bench 0 0x00430821#32 []).fault = none ∧ decode 0x00430821#32 = .instr (.addu 2 3 1 0#5) ∧ isTransfer (.addu 2 3 1 0#5) = false ∧
    check (engineStep (bench 0 0x00430821#32 [])) (fun t => t.fault == none && t.pc == 1#32) = true ∧
    check (engineStep (bench 0 0x0C00000A#32 [])) (fun t => t.fault == none && t.pc == 10#32) = true ∧
    check (engineStep (bench 7 0x00A0F809#32 [(5, 20#32)])) (fun t => t.fault == none && t.pc == 20#32) = true ∧
    check (engineStep (bench 10 0x1022FFFE#32 [])) (fun t => t.fault == none && t.pc == 9#32) = true := by decide

theorem witness_LastWriteNamesTheWrittenRegister :
    (bench 3 0x0C00000A#32 []).fault = none ∧
    check (engineStep (bench 3 0x0C00000A#32 [])) (fun t =>
      t.fault == none && readReg t 31 != readReg (bench 3 0x0C00000A#32 []) 31 && t.lastWrite == some 31) = true := by decide

theorem witness_HaltedIsSetByTheHaltWordAlone :
    check (step (bench 0 0x00000000#32 [])) (fun t => t.halted) = true ∧
    check (step (bench 0 0x00000040#32 [])) (fun t => !t.halted) = true ∧ (setHalted State.reset).halted = true := by decide

/-! ### Witnesses: the observer -/

theorem witness_ControlTransferOrHaltEndsTheCycle :
    (pair 0x14000005#32 0x24010001#32).halted = false ∧ (pair 0x14000005#32 0x24010001#32).fault = none ∧
    (pair 0x14000005#32 0x24010001#32).phase = .ready ∧ peek (pair 0x14000005#32 0x24010001#32) = some 0x14000005#32 ∧
    decode 0x14000005#32 = .instr (.bne 0 0 5#16) ∧ isTransfer (.bne 0 0 5#16) = true ∧
    peek (pair 0x00000000#32 0x24010001#32) = some 0x00000000#32 ∧ decode 0x00000000#32 = .instr .halt := by decide

/-- A pair of L2.9 meets `PairAt`: what is left to name is the instruction of `a`. -/
theorem pairAt_of {a b : Word} {i : Instr} (hd : decode a = .instr i) (hi : i ≠ .halt) (ht : isTransfer i = false)
    (h : check (engineStep (pair a b)) (fun u => decide (u.fault = none ∧ peek u = some b)) = true)
    (hp : peek (pair a b) = some a) :
    ∃ u, PairAt (pair a b) u a b ∧ engineStep (pair a b) = .next u := by
  obtain ⟨u, hu, hx⟩ := next_of_check h
  obtain ⟨hf, hb⟩ := of_decide_eq_true hx
  exact ⟨u, ⟨⟨rfl, rfl⟩, rfl, hp, hu, hf, ⟨i, hd, hi, ht⟩, hb⟩, hu⟩

/-- What `lastWrite` and the parameters are after the first step of a pair decides the data dependency. -/
theorem dataDependent_of {s u : State} {b : Word} (hu : engineStep s = .next u)
    (h : check (engineStep s) (fun u => dataDep u.params u.lastWrite b) = true) : DataDependent u b := by
  rw [hu] at h
  simp only [check, dataDep] at h
  cases hr : u.lastWrite with
  | none => simp [hr] at h
  | some r => exact ⟨r, hr, by simpa [hr] using h⟩

theorem not_dataDependent_of {s u : State} {b : Word} (hu : engineStep s = .next u)
    (h : check (engineStep s) (fun u => !dataDep u.params u.lastWrite b) = true) : ¬DataDependent u b := by
  rintro ⟨r, hr, hm⟩
  rw [hu] at h
  simp [check, dataDep, hr, hm] at h

/-- `lw $1; sw $2` and `mul $1; mul $4,$1,$6` (L2.9): no overlap, and an overlap. -/
theorem witness_SharedUnitIsAStructuralStop :
    (∃ s u a b, PairAt s u a b ∧ SharesUnit a b ∧ ¬DataDependent u b) ∧ ∃ s u a b, PairAt s u a b ∧ SharesUnit a b ∧ DataDependent u b := by
  constructor
  · obtain ⟨u, h, hu⟩ := pairAt_of (a := 0x8C010004#32) (b := 0xAC020005#32) (i := .lw 0 1 4#16) (by decide) (by decide) rfl (by decide)
      (by decide)
    exact ⟨_, u, _, _, h, Or.inl (by decide), not_dataDependent_of hu (by decide)⟩
  · obtain ⟨u, h, hu⟩ := pairAt_of (a := 0x70430802#32) (b := 0x70262002#32) (i := .mul 2 3 1 0#5) (by decide) (by decide) rfl (by decide)
      (by decide)
    exact ⟨_, u, _, _, h, Or.inr (by decide), dataDependent_of hu (by decide)⟩

/-- `addu $1,$2,$3; addiu $4,$1,1` (L1.9), and the write to register 0 that is recorded (D11). -/
theorem witness_DependenceIsADataStop :
    (∃ s u a b, PairAt s u a b ∧ ¬SharesUnit a b ∧ DataDependent u b) ∧
    ∃ s u a b, PairAt s u a b ∧ ¬SharesUnit a b ∧ DataDependent u b ∧ u.lastWrite = some 0 := by
  constructor
  · obtain ⟨u, h, hu⟩ := pairAt_of (a := 0x00430821#32) (b := 0x24240001#32) (i := .addu 2 3 1 0#5) (by decide) (by decide) rfl (by decide)
      (by decide)
    exact ⟨_, u, _, _, h, by unfold SharesUnit; decide, dataDependent_of hu (by decide)⟩
  · obtain ⟨u, h, hu⟩ := pairAt_of (a := 0x00000040#32) (b := 0x24010001#32) (i := .sll 0 0 0 1#5) (by decide) (by decide) rfl (by decide)
      (by decide)
    obtain ⟨v, hv, hl⟩ := next_of_check (r := engineStep (pair 0x00000040#32 0x24010001#32)) (p := fun u => u.lastWrite == some 0) (by decide)
    rw [hu] at hv
    cases hv
    exact ⟨_, u, _, _, h, by unfold SharesUnit; decide, dataDependent_of hu (by decide), by simpa using hl⟩

/-- `addu $1,$2,$3; addu $4,$5,$6` (L2.9), whose second step has no fatal error, and L2.9's pair whose second instruction faults. -/
theorem witness_IndependentPairIsDualIssued :
    (∃ s u a b, PairAt s u a b ∧ ¬SharesUnit a b ∧ ¬DataDependent u b ∧ check (stepN 2 s) (fun v => v.fault == none) = true) ∧
    ∃ s u a b, PairAt s u a b ∧ ¬SharesUnit a b ∧ ¬DataDependent u b ∧ check (stepN 2 s) (fun v => v.fault.isSome) = true := by
  constructor
  · obtain ⟨u, h, hu⟩ := pairAt_of (a := 0x00430821#32) (b := 0x00A62021#32) (i := .addu 2 3 1 0#5) (by decide) (by decide) rfl (by decide)
      (by decide)
    exact ⟨_, u, _, _, h, by unfold SharesUnit; decide, not_dataDependent_of hu (by decide), by decide⟩
  · obtain ⟨u, h, hu⟩ := pairAt_of (a := 0x24010001#32) (b := 0x00000020#32) (i := .addiu 0 1 1#16) (by decide) (by decide) rfl (by decide)
      (by decide)
    exact ⟨_, u, _, _, h, by unfold SharesUnit; decide, not_dataDependent_of hu (by decide), by decide⟩

/-- A well-formed instruction of each row with an open choice, and the malformed words of D15 and log 25. -/
theorem witness_ReadSetsAreTheTables :
    (Instr.sll 3 2 1 4#5).wellFormed = true ∧ (Instr.lui 3 1 0xAB#16).wellFormed = true ∧ (Instr.blez 2 1 0#16).wellFormed = true ∧
    decode 0x70A62018#32 = .malformed .badMulFunct ∧ decode 0x00000020#32 = .malformed .unknownFunct ∧
    decode 0xFC000000#32 = .malformed .unknownOpcode := by decide

/-- A cycle of one step and a cycle of two. -/
theorem witness_IssueCycleIsOneOrTwoSteps :
    (pair 0x24010001#32 0x24020002#32).halted = false ∧ (pair 0x24010001#32 0x24020002#32).fault = none ∧
    (pair 0x24010001#32 0x24020002#32).phase = .ready ∧
    check (step (pair 0x24010001#32 0x24020002#32)) (fun t => t.phase == .execB) = true ∧
    check (step (pair 0x08000001#32 0x24020002#32)) (fun t => t.phase == .ready) = true := by decide

/-- A step without a fatal error, one that faults in the engine, and one whose second peek faults. -/
theorem witness_ObserverPreservesTheEngineStep :
    check (step (pair 0x24010001#32 0x24020002#32)) (fun t => t.fault == none) = true ∧
    check (step (pair 0x00000020#32 0x24020002#32)) (fun t => t.fault.isSome) = true ∧
    check (step (bench 15 0x00430821#32 [])) (fun t => t.fault.isSome) = true := by decide

/-- How a run ends: it finishes in a state of which `p` holds. -/
def ends (r : RunEnd) (p : State → Bool) : Bool :=
  match r with
  | .finished t => p t
  | .notFinished _ => false
  | .refused _ => false

/-- Runs of both kinds that finish: at HALT, and in a fatal error (L2.9's last pair). -/
theorem witness_ObserverPreservesProgramSemantics :
    (pair 0x24010001#32 0x00000000#32).phase = .ready ∧
    ends (runCycles 1 (pair 0x24010001#32 0x00000000#32)) (fun t => t.halted) = true ∧
    ends (runSteps 2 (pair 0x24010001#32 0x00000000#32)) (fun t => t.halted) = true ∧
    ends (runCycles 1 (pair 0x24010001#32 0x00000020#32)) (fun t => t.fault.isSome) = true ∧
    ends (runSteps 2 (pair 0x24010001#32 0x00000020#32)) (fun t => t.fault.isSome) = true := by decide

end Sys2Proof.Tests
end

section
/-! PROOFS. The HALT instruction (R103): the word that decodes to it, and what its execution leaves. -/

namespace Sys2Proof.Machine
open Sys2Proof.Stated

/-- The HALT test comes first in dispatch, and no other branch answers HALT (R81). -/
theorem decode_eq_instr_halt_iff (w : Word) : decode w = .instr .halt ↔ w = haltWord := by
  constructor
  · intro h
    rcases selects_of_opOfWord (opOfWord_of_decode h) with ⟨-, hw⟩ | ⟨hne, -, -⟩
    · exact hw
    · exact absurd rfl hne
  · rintro rfl
    rfl

theorem exec_halt (s : State) : exec .halt s = .next (setHalted s) := rfl

/-- An operation that leaves the store leaves every read of it and MEMLEN. -/
theorem memoryKept_of_mem_eq {s t : State} (h : t.mem = s.mem) : MemoryKept s t :=
  ⟨congrArg Memory.len h, fun a => congrArg (Memory.read · a) h⟩

/-- Settles O9: dispatch names HALT for the HALT word alone, and `setHalted` writes the one field. -/
theorem haltOnlyHalts : Obligations.HaltOnlyHalts := by
  refine ⟨decode_eq_instr_halt_iff, fun s => ⟨setHalted s, exec_halt s, setHalted_halted s, readReg_setHalted s,
    memoryKept_of_mem_eq (setHalted_mem s), ?_⟩⟩
  simp

end Sys2Proof.Machine
end

section
/-! PROOFS. The ALU instructions of 41_alu.md: their words decode to them, each result is the operation's exact value narrowed to 32 bits,
and writing it is all that the instruction does (R120). -/

namespace Sys2Proof.Machine
open Sys2Proof.Stated

/-! ### The word of an instruction decodes to it -/

/-- Dispatch looks at the selectors alone, once the word is not the HALT word (R81, R84). -/
theorem decode_encode_of_ne_haltWord {i : Instr} (hhalt : i.op ≠ .halt) (hw : encode i ≠ haltWord) : decode (encode i) = .instr i := by
  rw [decode, opOfWord_of_selects hhalt hw (selects_encode i)]
  exact congrArg Decoded.instr (instrOfFields_encode i)

/-- HALT and sll apart, an instruction's selectors already tell its word from the HALT word. -/
theorem decode_encode_of_op {i : Instr} (hhalt : i.op ≠ .halt) (hsll : i.op ≠ .sll) : decode (encode i) = .instr i :=
  decode_encode_of_ne_haltWord hhalt (ne_haltWord_of_selects (selects_encode i) hhalt hsll)

/-! ### A register result is the whole effect (R105, R120) -/

theorem countInstr_counted (c : StatCounters) (k : StatClass) : Counted c (countInstr c k) k := by
  cases k <;> constructor <;> rfl

theorem writeResult_completes (s : State) (d : RegIdx) (v : Word) (k : StatClass) :
    Completes s (writeResult s d v k) (some (d, v)) s.pc k where
  regs := readReg_writeResult s d v k
  lastWrite := writeResult_lastWrite s d v k
  pc := writeResult_pc s d v k
  counters := by rw [writeResult_stats]; exact countInstr_counted s.stats k
  rest := by constructor <;> simp

/-- An instruction whose meaning is one register result under `aluCount` computes that result, in whatever form the value is stated. -/
theorem computesInto_of_writeResult {i : Instr} {d : RegIdx} {v w : State → Word}
    (hexec : ∀ s, exec i s = .next (writeResult s d (w s) .alu))
    (hvalue : ∀ s, w s = v s) : ComputesInto i d v := by
  intro s
  refine ⟨writeResult s d (v s) .alu, ?_, writeResult_completes s d (v s) .alu, memoryKept_of_mem_eq (writeResult_mem ..)⟩
  rw [hexec, hvalue]

/-! ### The results as exact values narrowed to 32 bits -/

theorem sub_eq_ofInt (x y : Word) : x - y = BitVec.ofInt 32 ((x.toNat : Int) - y.toNat) := by
  rw [Int.sub_eq_add_neg, BitVec.ofInt_add, BitVec.ofInt_neg, BitVec.ofInt_natCast, BitVec.ofInt_natCast, BitVec.sub_eq_add_neg,
    BitVec.ofNat_toNat, BitVec.ofNat_toNat, BitVec.setWidth_eq, BitVec.setWidth_eq]

theorem shiftLeft_eq_ofNat (x : Word) (n : Nat) : x <<< n = BitVec.ofNat 32 (x.toNat * 2 ^ n) := by
  apply BitVec.eq_of_toNat_eq
  rw [BitVec.toNat_shiftLeft, Nat.shiftLeft_eq, BitVec.toNat_ofNat]

theorem ushiftRight_eq_ofNat (x : Word) (n : Nat) : x >>> n = BitVec.ofNat 32 (x.toNat / 2 ^ n) := by
  apply BitVec.eq_of_toNat_eq
  have hlt : x.toNat / 2 ^ n < 2 ^ 32 := (Nat.div_le_self ..).trans_lt x.isLt
  rw [BitVec.toNat_ushiftRight, Nat.shiftRight_eq_div_pow, BitVec.toNat_ofNat, Nat.mod_eq_of_lt hlt]

theorem sshiftRight_eq_ofInt (x : Word) (n : Nat) : x.sshiftRight n = BitVec.ofInt 32 (x.toInt / 2 ^ n) := by
  rw [BitVec.sshiftRight, Int.shiftRight_eq_div_pow]
  norm_cast

theorem add_sext32_eq_ofInt (x : Word) (imm : BitVec 16) : x + sext32 imm = BitVec.ofInt 32 (x.toInt + imm.toInt) := by
  rw [BitVec.ofInt_add, BitVec.ofInt_toInt]
  rfl

theorem upperImm_eq_ofNat (imm : BitVec 16) : upperImm imm = BitVec.ofNat 32 (imm.toNat * 2 ^ 16) := by
  apply BitVec.eq_of_toNat_eq
  have hlt : imm.toNat * 2 ^ 16 < 2 ^ 32 := by omega
  rw [upperImm, BitVec.toNat_append, BitVec.toNat_ofNat, BitVec.toNat_ofNat, Nat.mod_eq_of_lt hlt, Nat.shiftLeft_eq,
    Nat.zero_mod, Nat.or_zero]

/-! ### The obligations -/

/-- Settles O10: addition of 32-bit words is addition modulo 2^32. -/
theorem adduAddsModuloTwoPow32 : Obligations.AdduAddsModuloTwoPow32 := fun rs rt rd shamt =>
  ⟨decode_encode_of_op (i := .addu rs rt rd shamt) nofun nofun,
    computesInto_of_writeResult (fun _ => rfl) fun _ => BitVec.add_def ..⟩

/-- Settles O11: a negative difference is narrowed modulo 2^32 too. -/
theorem subuSubtractsModuloTwoPow32 : Obligations.SubuSubtractsModuloTwoPow32 := fun rs rt rd shamt =>
  ⟨decode_encode_of_op (i := .subu rs rt rd shamt) nofun nofun,
    computesInto_of_writeResult (fun _ => rfl) fun _ => sub_eq_ofInt ..⟩

/-- Settles O12: the model computes the stated value itself. -/
theorem andWritesBitwiseAnd : Obligations.AndWritesBitwiseAnd := fun rs rt rd shamt =>
  ⟨decode_encode_of_op (i := .and rs rt rd shamt) nofun nofun,
    computesInto_of_writeResult (fun _ => rfl) fun _ => rfl⟩

/-- Settles O13: the model computes the stated value itself. -/
theorem orWritesBitwiseOr : Obligations.OrWritesBitwiseOr := fun rs rt rd shamt =>
  ⟨decode_encode_of_op (i := .or rs rt rd shamt) nofun nofun,
    computesInto_of_writeResult (fun _ => rfl) fun _ => rfl⟩

/-- Settles O14: the model computes the stated value itself. -/
theorem xorWritesBitwiseXor : Obligations.XorWritesBitwiseXor := fun rs rt rd shamt =>
  ⟨decode_encode_of_op (i := .xor rs rt rd shamt) nofun nofun,
    computesInto_of_writeResult (fun _ => rfl) fun _ => rfl⟩

/-- Settles O15: the model computes the stated value itself. -/
theorem norWritesBitwiseNor : Obligations.NorWritesBitwiseNor := fun rs rt rd shamt =>
  ⟨decode_encode_of_op (i := .nor rs rt rd shamt) nofun nofun,
    computesInto_of_writeResult (fun _ => rfl) fun _ => rfl⟩

/-- Settles O16: the all-zero word is the one word with sll's selectors that is not sll's, so the hypothesis is what decoding needs. -/
theorem sllShiftsLeftByShamt : Obligations.SllShiftsLeftByShamt := fun rs rt rd shamt =>
  ⟨decode_encode_of_ne_haltWord (i := .sll rs rt rd shamt) nofun,
    computesInto_of_writeResult (fun _ => rfl) fun _ => shiftLeft_eq_ofNat ..⟩

/-- Settles O17: filling with zeros is division of the unsigned value. -/
theorem srlShiftsRightLogicalByShamt : Obligations.SrlShiftsRightLogicalByShamt := fun rs rt rd shamt =>
  ⟨decode_encode_of_op (i := .srl rs rt rd shamt) nofun nofun,
    computesInto_of_writeResult (fun _ => rfl) fun _ => ushiftRight_eq_ofNat ..⟩

/-- Settles O18: filling with the sign is division of the signed value, rounding down. -/
theorem sraShiftsRightArithmeticByShamt : Obligations.SraShiftsRightArithmeticByShamt := fun rs rt rd shamt =>
  ⟨decode_encode_of_op (i := .sra rs rt rd shamt) nofun nofun,
    computesInto_of_writeResult (fun _ => rfl) fun _ => sshiftRight_eq_ofInt ..⟩

/-- Settles O20: sign extension keeps the signed value of the immediate. -/
theorem addiuAddsSignedImmediate : Obligations.AddiuAddsSignedImmediate := fun rs rt imm =>
  ⟨decode_encode_of_op (i := .addiu rs rt imm) nofun nofun,
    computesInto_of_writeResult (fun _ => rfl) fun _ => add_sext32_eq_ofInt ..⟩

/-- Settles O23: the immediate times 2^16 fits in 32 bits. -/
theorem luiLoadsUpperHalf : Obligations.LuiLoadsUpperHalf := fun rs rt imm =>
  ⟨decode_encode_of_op (i := .lui rs rt imm) nofun nofun,
    computesInto_of_writeResult (fun _ => rfl) fun _ => upperImm_eq_ofNat ..⟩

end Sys2Proof.Machine
end

section
/-! PROOFS. The decoder and the encoder are inverse to each other (30_encoding.md R70 to R82), and the words outside the encoder's image are
R86's. -/

namespace Sys2Proof
open Sys2Proof.Machine

/-! ### The instructions that have a word -/

/-- R127: the one instruction without a word of its own is the sll that would be the HALT word. -/
theorem wellFormed_iff_ne (i : Instr) : i.wellFormed = true ↔ i ≠ .sll 0 0 0 0#5 := by
  cases i with
  | sll rs rt rd shamt => simp [Instr.wellFormed, imp_iff_not_or, or_assoc]
  | _ => exact ⟨nofun, fun _ => rfl⟩

/-- What is encoded as the HALT word is HALT itself or the sll without a word. -/
theorem eq_of_encode_eq_haltWord {i : Instr} (h : encode i = haltWord) : i = .halt ∨ i = .sll 0 0 0 0#5 := by
  have hfields : instrOfFields i.op haltWord = i := h ▸ instrOfFields_encode i
  by_cases hhalt : i.op = .halt
  · exact Or.inl (by rw [← hfields, hhalt]; rfl)
  · by_cases hsll : i.op = .sll
    · exact Or.inr (by rw [← hfields, hsll]; decide)
    · exact absurd h (ne_haltWord_of_selects (selects_encode i) hhalt hsll)

/-! ### The round trips -/

/-- Settles O4: HALT is tested first, and any other instruction's selectors decide its name once its word is not the HALT word. -/
theorem encodeThenDecodeIsIdentity : Obligations.EncodeThenDecodeIsIdentity := by
  intro i hwf
  by_cases hhalt : i = .halt
  · subst hhalt
    rfl
  · have hop : i.op ≠ .halt := fun h => hhalt (by rw [← instrOfFields_encode i, h]; rfl)
    refine decode_encode_of_ne_haltWord hop fun hw => ?_
    rcases eq_of_encode_eq_haltWord hw with h | h
    · exact hhalt h
    · exact (wellFormed_iff_ne i).1 hwf h

/-- A word that decodes to an instruction is the instruction's. -/
theorem encode_of_decode {w : Word} {i : Instr} (h : decode w = .instr i) : encode i = w := by
  have hop := opOfWord_of_decode h
  have hi : instrOfFields i.op w = i := by simpa [decode, hop] using h
  rw [← hi]
  rcases selects_of_opOfWord hop with ⟨ho, rfl⟩ | ⟨hne, -, hsel⟩
  · rw [ho]
    rfl
  · exact encode_instrOfFields hne hsel

/-- No word decodes to the instruction without a word: its fields are the HALT word's, which decodes to HALT. -/
theorem wellFormed_of_decode {w : Word} {i : Instr} (h : decode w = .instr i) : i.wellFormed = true := by
  rw [wellFormed_iff_ne]
  rintro rfl
  have hw : w = haltWord := (encode_of_decode h).symm.trans (by decide)
  rw [hw] at h
  exact absurd h (by decide)

/-- Settles O5: a name's fields and selectors put the word together again. -/
theorem decodeThenEncodeIsIdentity : Obligations.DecodeThenEncodeIsIdentity := fun _ _ h =>
  ⟨wellFormed_of_decode h, encode_of_decode h⟩

/-! ### The illegal words -/

/-- R79's eleven functs under opcode 0. -/
def legalFuncts : List (BitVec 6) :=
  [0x00#6, 0x02#6, 0x03#6, 0x08#6, 0x09#6, 0x21#6, 0x23#6, 0x24#6, 0x25#6, 0x26#6, 0x27#6]

/-- R78's opcodes. -/
def legalOpcodes : List (BitVec 6) :=
  [0x00#6, 0x02#6, 0x03#6, 0x04#6, 0x05#6, 0x06#6, 0x07#6, 0x09#6, 0x0A#6, 0x0E#6, 0x0F#6, 0x1C#6, 0x23#6, 0x2B#6]

theorem exists_special_of_legal {f : BitVec 6} (h : f ∈ legalFuncts) : ∃ o ∈ specialOps, functOf o = some f := by
  revert f
  decide

theorem legal_funct_of_special {o : Op} (h : o ∈ specialOps) : ∃ f ∈ legalFuncts, functOf o = some f := by
  revert o
  decide

theorem selected_of_legal {f : BitVec 6} (h : f ∈ legalOpcodes) :
    f = specialOpcode ∨ f = opcodeOf .mul ∨ ∃ o ∈ primaryOps, opcodeOf o = f := by
  revert f
  decide

theorem opcodeOf_legal (o : Op) : opcodeOf o ∈ legalOpcodes := by
  cases o <;> decide

theorem eq_halt_or_special {o : Op} (h : opcodeOf o = specialOpcode) : o = .halt ∨ o ∈ specialOps := by
  revert h
  cases o <;> decide

theorem eq_mul_of_opcodeOf {o : Op} (h : opcodeOf o = 0x1C#6) : o = .mul := by
  revert h
  cases o <;> decide

/-- R86 with the kinds of R202 rows 1 to 3: which words are illegal, by kind. -/
def IllegalAs (w : Word) : Malformed → Prop
  | .unknownFunct => opcodeField w = 0x00#6 ∧ w ≠ 0x00000000#32 ∧ functField w ∉ legalFuncts
  | .badMulFunct => opcodeField w = 0x1C#6 ∧ functField w ≠ 0x02#6
  | .unknownOpcode => opcodeField w ∉ legalOpcodes

/-- A rejected word is dispatched to no name. -/
theorem opOfWord_of_decode_malformed {w : Word} {k : Malformed} (h : decode w = .malformed k) : opOfWord w = .malformed k := by
  unfold decode at h
  split at h
  · cases h
  · rename_i k' hk
    cases h
    exact hk

theorem illegalAs_of_decode {w : Word} {k : Malformed} (h : decode w = .malformed k) : IllegalAs w k := by
  obtain ⟨hw, ⟨rfl, hop, hfunct⟩ | ⟨rfl, hop, hfunct⟩ | ⟨rfl, hspecial, hmul, hprimary⟩⟩ :=
    malformed_cases (opOfWord_of_decode_malformed h)
  · refine ⟨hop, hw, fun hlegal => ?_⟩
    obtain ⟨o, ho, hf⟩ := exists_special_of_legal hlegal
    exact hfunct o ho hf
  · exact ⟨hop, fun e => hfunct (by rw [e]; rfl)⟩
  · intro hlegal
    rcases selected_of_legal hlegal with h0 | h0 | ⟨o, ho, h0⟩
    · exact hspecial h0
    · exact hmul h0
    · exact hprimary o ho h0

/-- No instruction's word is illegal: its selectors are in the lists, and the one instruction under opcode 0 without a funct is HALT. -/
theorem not_illegalAs_encode (i : Instr) (k : Malformed) : ¬IllegalAs (encode i) k := by
  obtain ⟨hop, hfunct⟩ := selects_encode i
  cases k with
  | unknownFunct =>
    rintro ⟨hspecial, hw, hillegal⟩
    rcases eq_halt_or_special (hop ▸ hspecial) with hhalt | hmem
    · exact hw (by rw [← instrOfFields_encode i, hhalt]; rfl)
    · obtain ⟨f, hlegal, hf⟩ := legal_funct_of_special hmem
      exact hillegal (hfunct f hf ▸ hlegal)
  | badMulFunct =>
    rintro ⟨hmul, hne⟩
    have hop' : i.op = .mul := eq_mul_of_opcodeOf (hop ▸ hmul)
    rw [hop'] at hfunct
    exact hne (hfunct _ rfl)
  | unknownOpcode => exact fun hillegal => hillegal (hop ▸ opcodeOf_legal i.op)

/-- The kind that an illegal word has by its opcode. -/
def kindOfOpcode (opcode : BitVec 6) : Malformed :=
  if opcode = 0x00#6 then .unknownFunct else if opcode = 0x1C#6 then .badMulFunct else .unknownOpcode

/-- The opcode alone tells the kind, so the kinds exclude each other. -/
theorem kind_of_illegalAs {w : Word} {k : Malformed} (h : IllegalAs w k) : k = kindOfOpcode (opcodeField w) := by
  cases k with
  | unknownFunct => rw [h.1]; rfl
  | badMulFunct => rw [h.1]; rfl
  | unknownOpcode =>
    have hspecial : opcodeField w ≠ 0x00#6 := fun e => h (by rw [e]; decide)
    have hmul : opcodeField w ≠ 0x1C#6 := fun e => h (by rw [e]; decide)
    rw [kindOfOpcode, if_neg hspecial, if_neg hmul]

theorem decode_eq_malformed_iff (w : Word) (k : Malformed) : decode w = .malformed k ↔ IllegalAs w k := by
  refine ⟨illegalAs_of_decode, fun h => ?_⟩
  cases hd : decode w with
  | instr i => exact absurd (encode_of_decode hd ▸ h) (not_illegalAs_encode i k)
  | malformed k' => rw [kind_of_illegalAs h, kind_of_illegalAs (illegalAs_of_decode hd)]

/-- Settles O6: a word is rejected under the kind of its one illegal condition, and no instruction's word meets any. -/
theorem illegalWordsAreExactlyTheListed : Obligations.IllegalWordsAreExactlyTheListed := fun w =>
  ⟨decode_eq_malformed_iff w .unknownFunct, decode_eq_malformed_iff w .badMulFunct, decode_eq_malformed_iff w .unknownOpcode⟩

/-- Settles O3: each word is evaluated by the decoder. -/
theorem specExampleWordsDecode : Obligations.SpecExampleWordsDecode := by
  unfold Obligations.SpecExampleWordsDecode
  decide

end Sys2Proof
end

section
/-! PROOFS. The registers, the word store, and what a launch leaves (10_state.md, 20_memory.md, 70_reset_and_hazards.md). -/

namespace Sys2Proof.Machine
open Sys2Proof.Stated

/-! ### Registers -/

/-- Settles O7: what a read gives after a write, and what the write records. -/
theorem registerZeroIsHardWired : Obligations.RegisterZeroIsHardWired := by
  intro s d r v
  refine ⟨readReg_zero s, ?_, fun hd => ?_, fun hr => ?_, fun hd => ?_, ?_⟩
  · simp
  · simp [hd]
  · simp [hr]
  · simp [hd]
  · rw [writeReg_lastWrite]
    cases s.params.r0WriteRecorded <;> simp

/-! ### The word store -/

/-- R51, as a proposition: a read answers exactly below MEMLEN. -/
theorem Memory.read_isSome_iff (m : Memory) (a : Word) : (m.read a).isSome = true ↔ a.toNat < m.len := by
  rw [Memory.read_isSome]
  exact decide_eq_true_iff

theorem Memory.read_eq_none_iff (m : Memory) (a : Word) : m.read a = none ↔ m.len ≤ a.toNat := by
  rw [← not_lt, ← Memory.read_isSome_iff, Option.not_isSome_iff_eq_none]

theorem Memory.write_isSome_iff (m : Memory) (a v : Word) : (m.write a v).isSome = true ↔ a.toNat < m.len := by
  rw [← Memory.read_isSome_iff, Option.isSome_iff_ne_none, Option.isSome_iff_ne_none, Ne, Memory.write_eq_none_iff]

/-- Settles O8: reads and writes share their bounds test, and a write is `Memory.write_spec`. -/
theorem memoryReadsTheLatestWrite : Obligations.MemoryReadsTheLatestWrite := by
  intro m a v
  refine ⟨m.read_isSome_iff a, m.write_isSome_iff a v, fun m' h => ?_⟩
  obtain ⟨-, hlen, hread, hother⟩ := Memory.write_spec h
  exact ⟨hlen, hread, hother⟩

/-! ### Launch and reset -/

theorem readReg_launch (p : Params) (m : Memory) (regInit : RegIdx → Word) {r : RegIdx} (hr : r ≠ 0) :
    readReg (State.launch p m regInit) r = regInit r := by
  have hne : (0 : Nat) ≠ (r : Nat) := fun e => hr (Fin.ext e.symm)
  simp [readReg, State.launch, hr, hne]

/-- Settles O1: the launch writes each field, and the store of an image reads as the image. -/
theorem launchGivesResetValues : Obligations.LaunchGivesResetValues := by
  rintro p image regInit _ rfl
  exact ⟨readReg_zero _, fun r => readReg_launch p _ regInit, rfl, rfl, rfl, rfl, rfl, Memory.ofImage_read image,
    ⟨rfl, rfl, rfl, rfl, rfl, rfl⟩, ⟨rfl, rfl, rfl, rfl, rfl, rfl, rfl, rfl⟩, rfl, rfl, rfl, rfl⟩

theorem readReg_reset (r : RegIdx) : readReg State.reset r = 0#32 := by
  by_cases hr : r = 0
  · rw [hr, readReg_zero]
  · exact readReg_launch _ _ _ hr

/-- Settles O2: reset is the launch with the model's choices, and a store without cells holds the unlisted word everywhere. -/
theorem resetTakesTheModelsLaunchValues : Obligations.ResetTakesTheModelsLaunchValues := by
  refine ⟨readReg_reset, rfl, fun a => ?_, rfl⟩
  simp only [Memory.read, Memory.inBounds, decide_eq_true_eq]
  rfl

/-- Settles O43: a launched machine is running and READY, so only the store and the storage of register 0 are at stake. -/
theorem launchMeetsTheStateInvariant : Obligations.LaunchMeetsTheStateInvariant := by
  have hlaunch : ∀ (p : Params) (m : Memory) (regInit : RegIdx → Word), m.wf → StateInv (State.launch p m regInit) :=
    fun p m regInit hm =>
      { memory := hm
        slotZero := by simp [State.launch]
        haltedEnd := nofun
        faultedEnd := fun h => absurd rfl h
        secondPeeked := nofun }
  exact ⟨hlaunch, fun _ => Memory.ofImage_wf, hlaunch _ _ _ ⟨le_refl _, List.Pairwise.nil, nofun⟩⟩

/-- Settles O45: every counter and `mask` are 0. -/
theorem launchMeetsTheCounterIdentities : Obligations.LaunchMeetsTheCounterIdentities := by
  have hlaunch : ∀ (p : Params) (m : Memory) (regInit : RegIdx → Word), CounterInv (State.launch p m regInit) :=
    fun _ _ _ =>
      { classes := rfl
        steps := fun _ => rfl
        stops := rfl
        overlaps := le_refl _
        maskRange := by simp [State.launch, maskValues]
        maskFresh := ⟨fun _ => rfl, fun _ => rfl⟩
        haltAlone := nofun }
  exact ⟨hlaunch, hlaunch _ _ _⟩

end Sys2Proof.Machine
end

section
/-! PROOFS. The other ALU instructions: mul, slti and xori (41_alu.md), in the shape of the ALU proofs above. -/

namespace Sys2Proof.Machine
open Sys2Proof.Stated

/-! ### The results as exact values narrowed to 32 bits -/

/-- The low half of a product does not depend on the sign of the operands. -/
theorem mul_eq_ofInt (x y : Word) : x * y = BitVec.ofInt 32 (x.toInt * y.toInt) := by
  rw [BitVec.ofInt_mul, BitVec.ofInt_toInt, BitVec.ofInt_toInt]

theorem bool32_lessSigned_sext32 (x : Word) (imm : BitVec 16) :
    bool32 (lessSigned x (sext32 imm)) = if x.toInt < imm.toInt then 1#32 else 0#32 := by
  have hsext : (sext32 imm).toInt = imm.toInt := BitVec.toInt_signExtend_of_le (by decide)
  rw [bool32, lessSigned, BitVec.slt, hsext]
  simp only [decide_eq_true_eq]

theorem zext32_eq_ofNat (imm : BitVec 16) : zext32 imm = BitVec.ofNat 32 imm.toNat :=
  (BitVec.ofNat_toNat 32 imm).symm

/-! ### The obligations -/

/-- Settles O19: the product modulo 2^32 is that of the unsigned and of the signed values. -/
theorem mulWritesLowProduct : Obligations.MulWritesLowProduct := fun rs rt rd shamt =>
  ⟨decode_encode_of_op (i := .mul rs rt rd shamt) nofun nofun,
    computesInto_of_writeResult (fun _ => rfl) fun _ => BitVec.mul_def ..,
    computesInto_of_writeResult (fun _ => rfl) fun _ => mul_eq_ofInt ..⟩

/-- Settles O21: sign extension keeps the signed value of the immediate. -/
theorem sltiComparesSigned : Obligations.SltiComparesSigned := fun rs rt imm =>
  ⟨decode_encode_of_op (i := .slti rs rt imm) nofun nofun,
    computesInto_of_writeResult (fun _ => rfl) fun _ => bool32_lessSigned_sext32 ..⟩

/-- Settles O22: zero extension keeps the unsigned value of the immediate. -/
theorem xoriFlipsLowHalf : Obligations.XoriFlipsLowHalf := fun rs rt imm =>
  ⟨decode_encode_of_op (i := .xori rs rt imm) nofun nofun,
    computesInto_of_writeResult (fun _ => rfl) fun _ => congrArg _ (zext32_eq_ofNat imm)⟩

end Sys2Proof.Machine
end

section
/-! PROOFS. The control transfers of 42_control.md: an instruction without a destination completes, and a transfer moves `pc` and nothing
else. -/

namespace Sys2Proof.Machine
open Sys2Proof.Stated

/-! ### Completion -/

/-- An instruction that writes no register, whatever it does to the store, completes when it is counted. -/
theorem complete_setMem_completes (s : State) (m : Memory) (k : StatClass) : Completes s (complete (setMem s m) k) none s.pc k where
  regs := fun _ => rfl
  lastWrite := rfl
  pc := rfl
  counters := countInstr_counted s.stats k
  rest := ⟨rfl, rfl, rfl, rfl, rfl, rfl, rfl⟩

theorem complete_completes (s : State) (k : StatClass) : Completes s (complete s k) none s.pc k :=
  complete_setMem_completes s s.mem k

/-- A transfer is a completed instruction with `pc` moved after it. -/
theorem completes_setPc {s t : State} {dest : Option (RegIdx × Word)} {pc : Word} {k : StatClass} (h : Completes s t dest pc k)
    (target : Word) : Completes s (setPc t target) dest target k where
  regs := h.regs
  lastWrite := by cases dest <;> exact h.lastWrite
  pc := rfl
  counters := h.counters
  rest := ⟨h.rest.ir, h.rest.halted, h.rest.fault, h.rest.pipe, h.rest.mask, h.rest.phase, h.rest.params⟩

/-! ### Targets, the link value and the conditions (R140, R145) -/

theorem jumpTarget_eq_ofNat (target : BitVec 26) : jumpTarget target = BitVec.ofNat 32 target.toNat :=
  (BitVec.ofNat_toNat 32 target).symm

theorem linkValue_eq_ofNat (s : State) : linkValue s = BitVec.ofNat 32 (s.ir.toNat + 1) :=
  BitVec.add_def ..

theorem branchTarget_eq_ofInt (s : State) (imm : BitVec 16) :
    branchTarget s imm = BitVec.ofInt 32 (s.ir.toNat + s.params.branchBase.val + imm.toInt) := by
  rw [BitVec.ofInt_add, BitVec.ofInt_add, BitVec.ofInt_natCast, BitVec.ofInt_natCast, BitVec.ofNat_toNat, BitVec.setWidth_eq]
  rfl

theorem lessEqZero_iff (x : Word) : lessEqZero x = true ↔ x.toInt ≤ 0 := by
  simp [lessEqZero, BitVec.sle]

theorem greaterZero_iff (x : Word) : greaterZero x = true ↔ 0 < x.toInt := by
  simp [greaterZero, BitVec.slt]

/-- What the four branches share: the condition alone decides between the target and the next instruction. -/
theorem branchesOn_of_branchOn {i : Instr} {imm : BitVec 16} {c : State → Bool} {cond : State → Prop}
    (hexec : ∀ s, exec i s = branchOn (c s) imm s) (hcond : ∀ s, c s = true ↔ cond s) : BranchesOn i imm cond := by
  constructor
  · intro s h
    refine ⟨setPc (complete s .branchTaken) (branchTarget s imm), ?_, memoryKept_of_mem_eq rfl, ?_⟩
    · rw [hexec, (hcond s).2 h]
      rfl
    · rw [← branchTarget_eq_ofInt]
      exact completes_setPc (complete_completes s _) _
  · intro s h
    refine ⟨complete s .branchUntaken, ?_, memoryKept_of_mem_eq rfl, complete_completes s _⟩
    rw [hexec, Bool.eq_false_iff.2 (mt (hcond s).1 h)]
    rfl

/-! ### The obligations -/

/-- Settles O24: `pc` is moved to the zero-extended field. -/
theorem jumpGoesToTarget : Obligations.JumpGoesToTarget := fun target =>
  ⟨decode_encode_of_op (i := .j target) nofun nofun, fun s => ⟨_, rfl,
    jumpTarget_eq_ofNat target ▸ completes_setPc (complete_completes s .jump) (jumpTarget target), memoryKept_of_mem_eq rfl⟩⟩

/-- Settles O25: the link is a register result, after which `pc` is moved. -/
theorem jumpAndLinkLinksRegister31 : Obligations.JumpAndLinkLinksRegister31 := fun target =>
  ⟨decode_encode_of_op (i := .jal target) nofun nofun, fun s => ⟨_, rfl,
    jumpTarget_eq_ofNat target ▸ linkValue_eq_ofNat s ▸
      completes_setPc (writeResult_completes s linkReg (linkValue s) .jal) (jumpTarget target),
    memoryKept_of_mem_eq (writeResult_mem s linkReg (linkValue s) .jal)⟩⟩

/-- Settles O26: `pc` is moved to the register's value. -/
theorem jumpRegisterGoesToRegister : Obligations.JumpRegisterGoesToRegister := fun rs rt rd shamt =>
  ⟨decode_encode_of_op (i := .jr rs rt rd shamt) nofun nofun, fun s => ⟨_, rfl,
    completes_setPc (complete_completes s .jump) (readReg s rs), memoryKept_of_mem_eq rfl⟩⟩

/-- Settles O27: the target is read in the state before the link is written. -/
theorem jumpAndLinkRegisterReadsBeforeLinking : Obligations.JumpAndLinkRegisterReadsBeforeLinking := fun rs rt rd shamt =>
  ⟨decode_encode_of_op (i := .jalr rs rt rd shamt) nofun nofun, fun s => ⟨_, rfl,
    linkValue_eq_ofNat s ▸ completes_setPc (writeResult_completes s rd (linkValue s) .jal) (readReg s rs),
    memoryKept_of_mem_eq (writeResult_mem s rd (linkValue s) .jal)⟩⟩

/-- Settles O28: the comparison is equality of words. -/
theorem beqBranchesOnEqual : Obligations.BeqBranchesOnEqual := fun rs rt imm =>
  ⟨decode_encode_of_op (i := .beq rs rt imm) nofun nofun, branchesOn_of_branchOn (fun _ => rfl) fun _ => beq_iff_eq⟩

/-- Settles O29: the comparison is inequality of words. -/
theorem bneBranchesOnNotEqual : Obligations.BneBranchesOnNotEqual := fun rs rt imm =>
  ⟨decode_encode_of_op (i := .bne rs rt imm) nofun nofun, branchesOn_of_branchOn (fun _ => rfl) fun _ => bne_iff_ne⟩

/-- Settles O30: the comparison with 0 is signed. -/
theorem blezBranchesOnNotPositive : Obligations.BlezBranchesOnNotPositive := fun rs rt imm =>
  ⟨decode_encode_of_op (i := .blez rs rt imm) nofun nofun, branchesOn_of_branchOn (fun _ => rfl) fun _ => lessEqZero_iff _⟩

/-- Settles O31: the comparison with 0 is signed. -/
theorem bgtzBranchesOnPositive : Obligations.BgtzBranchesOnPositive := fun rs rt imm =>
  ⟨decode_encode_of_op (i := .bgtz rs rt imm) nofun nofun, branchesOn_of_branchOn (fun _ => rfl) fun _ => greaterZero_iff _⟩

end Sys2Proof.Machine
end

section
/-! PROOFS. lw and sw (43_loadstore.md): each has one meaning in bounds and one out of bounds. -/

namespace Sys2Proof.Machine
open Sys2Proof.Stated

/-- The effective address modulo 2^32 is the exact sum narrowed (R159). -/
theorem effAddr_eq_wordIndex (s : State) (rs : RegIdx) (imm : BitVec 16) : effAddr s rs imm = wordIndex s rs imm :=
  add_sext32_eq_ofInt ..

/-! ### The two meanings of each -/

theorem exec_lw_of_read {s : State} {rs rt : RegIdx} {imm : BitVec 16} {v : Word} (h : s.mem.read (wordIndex s rs imm) = some v) :
    exec (.lw rs rt imm) s = .next (writeResult s rt v .load) := by
  simp only [exec, execLw, effAddr_eq_wordIndex, h]

theorem exec_lw_oob {s : State} {rs : RegIdx} (rt : RegIdx) {imm : BitVec 16} (h : s.mem.len ≤ (wordIndex s rs imm).toNat) :
    exec (.lw rs rt imm) s = .next (raiseFatal s (accessFault s .oobLoad (encode (.lw rs rt imm)) (wordIndex s rs imm))) := by
  simp only [exec, execLw, effAddr_eq_wordIndex, (Memory.read_eq_none_iff _ _).2 h]

theorem exec_sw_of_write {s : State} {rs rt : RegIdx} {imm : BitVec 16} {m : Memory}
    (h : s.mem.write (wordIndex s rs imm) (readReg s rt) = some m) : exec (.sw rs rt imm) s = .next (complete (setMem s m) .store) := by
  simp only [exec, execSw, effAddr_eq_wordIndex, h]

theorem exec_sw_oob {s : State} {rs : RegIdx} (rt : RegIdx) {imm : BitVec 16} (h : s.mem.len ≤ (wordIndex s rs imm).toNat) :
    exec (.sw rs rt imm) s = .next (raiseFatal s (accessFault s .oobStore (encode (.sw rs rt imm)) (wordIndex s rs imm))) := by
  have hnone := (Memory.write_eq_none_iff s.mem (wordIndex s rs imm) (readReg s rt)).2 ((Memory.read_eq_none_iff _ _).2 h)
  simp only [exec, execSw, effAddr_eq_wordIndex, hnone]

theorem raiseFatal_faulted (s : State) (r : FaultRecord) : Faulted s (raiseFatal s r) r :=
  ⟨rfl, rfl, rfl, rfl⟩

/-! ### The obligations -/

/-- Settles O32: in bounds lw is a register result of the word read, out of bounds a fatal error alone. -/
theorem lwLoadsOrFaults : Obligations.LwLoadsOrFaults := by
  refine fun rs rt imm => ⟨decode_encode_of_op (i := .lw rs rt imm) nofun nofun, fun s h => ?_, fun s h => ?_⟩
  · obtain ⟨v, hv⟩ := Option.isSome_iff_exists.1 ((Memory.read_isSome_iff _ _).2 h)
    exact ⟨_, v, exec_lw_of_read hv, hv, writeResult_completes s rt v .load, memoryKept_of_mem_eq (writeResult_mem ..)⟩
  · exact ⟨_, exec_lw_oob rt h, raiseFatal_faulted s _, fun _ => rfl⟩

/-- Settles O33: in bounds sw is one write of the store, out of bounds a fatal error alone. -/
theorem swStoresOrFaults : Obligations.SwStoresOrFaults := by
  refine fun rs rt imm => ⟨decode_encode_of_op (i := .sw rs rt imm) nofun nofun, fun s h => ?_, fun s h => ?_⟩
  · obtain ⟨m, hm⟩ := Option.isSome_iff_exists.1 ((Memory.write_isSome_iff _ _ (readReg s rt)).2 h)
    obtain ⟨-, hlen, hread, hother⟩ := Memory.write_spec hm
    exact ⟨_, exec_sw_of_write hm, complete_setMem_completes s m .store, hread, hother, hlen⟩
  · exact ⟨_, exec_sw_oob rt h, raiseFatal_faulted s _, memoryKept_of_mem_eq rfl⟩

end Sys2Proof.Machine
end

section
/-! PROOFS. The engine step (40_engine.md R100 to R106): its sequence, its fatal errors, where it leaves `pc`, and what `lastWrite`
names. -/

namespace Sys2Proof.Machine
open Sys2Proof.Stated

/-! ### The sequence -/

theorem preamble_pc_eq_ofNat (s : State) : (preamble s).pc = BitVec.ofNat 32 (s.pc.toNat + 1) :=
  BitVec.add_def ..

/-- The preamble leaves what the addresses of lw and sw are made of. -/
@[simp] theorem wordIndex_preamble (s : State) (rs : RegIdx) (imm : BitVec 16) : wordIndex (preamble s) rs imm = wordIndex s rs imm := by
  rw [wordIndex, readReg_preamble, wordIndex]

/-- Settles O34: the preamble writes four fields, and the three arms are those of the fetch and the decoder. -/
theorem engineStepFollowsTheSequence : Obligations.EngineStepFollowsTheSequence := by
  intro s
  refine ⟨⟨preamble_slotZero s, readReg_preamble s, rfl, rfl, preamble_pc_eq_ofNat s, rfl, rfl, rfl, rfl, rfl, rfl, rfl, rfl⟩,
    fun h => ⟨_, engineStep_oob h, rfl, rfl, rfl, rfl⟩, fun w hw => ⟨fun i hi => engineStep_instr hw hi, fun k hk => ?_⟩⟩
  exact ⟨_, engineStep_malformed hw hk, rfl, rfl, rfl, rfl⟩

/-- An engine step that raises no fatal error has run an instruction. -/
theorem engineStep_completed {s u : State} (h : engineStep s = .next u) (hf : u.fault = none) :
    ∃ w i, s.mem.read s.pc = some w ∧ decode w = .instr i ∧ exec i (preamble s) = .next u := by
  cases hw : s.mem.read s.pc with
  | none =>
    rw [engineStep_oob hw] at h
    cases h
    cases hf
  | some w =>
    cases hd : decode w with
    | malformed k =>
      rw [engineStep_malformed hw hd] at h
      cases h
      cases hf
    | instr i => exact ⟨w, i, rfl, hd, engineStep_instr hw hd ▸ h⟩

/-- The shape of a given engine step. -/
theorem effect_of_engineStep {s u : State} (h : engineStep s = .next u) : Effect (preamble s) u := by
  obtain ⟨t, ht, he⟩ := engineStep_effect s
  rw [ht] at h
  cases h
  exact he

/-! ### Fatal errors (R202) -/

/-- An instruction raises exactly the fatal error of an lw or an sw out of bounds. -/
theorem exec_fault_iff {i : Instr} {s t : State} {r : FaultRecord} (h : exec i s = .next t) (hf : s.fault = none) :
    t.fault = some r ↔
      (∃ rs rt imm, i = .lw rs rt imm ∧ s.mem.len ≤ (wordIndex s rs imm).toNat ∧
        r = accessFault s .oobLoad (encode i) (wordIndex s rs imm)) ∨
      ∃ rs rt imm, i = .sw rs rt imm ∧ s.mem.len ≤ (wordIndex s rs imm).toNat ∧
        r = accessFault s .oobStore (encode i) (wordIndex s rs imm) := by
  constructor
  · intro ht
    obtain ⟨-, rs, rt, imm, hread, hcase⟩ := exec_fatal h hf ht
    rw [effAddr_eq_wordIndex] at hread hcase
    have hoob := (Memory.read_eq_none_iff _ _).1 hread
    rcases hcase with ⟨hi, hr⟩ | ⟨hi, hr⟩
    · exact Or.inl ⟨rs, rt, imm, hi, hoob, hr⟩
    · exact Or.inr ⟨rs, rt, imm, hi, hoob, hr⟩
  · rintro (⟨rs, rt, imm, rfl, hoob, rfl⟩ | ⟨rs, rt, imm, rfl, hoob, rfl⟩)
    · rw [exec_lw_oob rt hoob] at h
      cases h
      rfl
    · rw [exec_sw_oob rt hoob] at h
      cases h
      rfl

/-- Settles O40: each arm of the step sequence raises its own rows of the list. -/
theorem fatalErrorsAreExactlyTheListed : Obligations.FatalErrorsAreExactlyTheListed := by
  intro s hf
  cases hw : s.mem.read s.pc with
  | none =>
    refine ⟨_, engineStep_oob hw, fun r => ?_⟩
    simp [fetchFault, eq_comm]
  | some w =>
    cases hd : decode w with
    | malformed k =>
      refine ⟨_, engineStep_malformed hw hd, fun r => ?_⟩
      simp [hd, eq_comm]
    | instr i =>
      obtain ⟨t, ht, -⟩ := exec_effect i (preamble s)
      refine ⟨t, (engineStep_instr hw hd).trans ht, fun r => ?_⟩
      rw [exec_fault_iff ht hf, encode_of_decode hd]
      simp [hd, accessFault]

/-! ### pc (R27, R140) -/

/-- Where an instruction leaves `pc`, the branches' condition left open. -/
def PcAfter (s : State) (pc : Word) : Instr → Prop
  | .j target | .jal target => pc = jumpTarget target
  | .jr rs _ _ _ | .jalr rs _ _ _ => pc = readReg s rs
  | .beq _ _ imm | .bne _ _ imm | .blez _ _ imm | .bgtz _ _ imm => pc = s.pc ∨ pc = branchTarget s imm
  | _ => pc = s.pc

theorem branchOn_pc {c : Bool} {imm : BitVec 16} {s t : State} (h : branchOn c imm s = .next t) :
    t.pc = s.pc ∨ t.pc = branchTarget s imm := by
  cases c <;> cases h
  · exact Or.inl rfl
  · exact Or.inr rfl

theorem exec_pcAfter {i : Instr} {s t : State} (h : exec i s = .next t) : PcAfter s t.pc i := by
  cases i with
  | beq _ _ _ | bne _ _ _ | blez _ _ _ | bgtz _ _ _ => exact branchOn_pc h
  | lw _ _ _ =>
    simp only [exec, execLw] at h
    split at h <;> cases h
    · exact writeResult_pc ..
    · rfl
  | sw _ _ _ =>
    simp only [exec, execSw] at h
    split at h <;> cases h <;> rfl
  | halt | j _ | jal _ | jr _ _ _ _ | jalr _ _ _ _ => cases h; rfl
  | _ => cases h; exact writeResult_pc ..

theorem PcAfter.eq_of_not_transfer {s : State} {pc : Word} {i : Instr} (h : PcAfter s pc i) (hi : isTransfer i = false) : pc = s.pc := by
  cases i with
  | j _ | jal _ | jr _ _ _ _ | jalr _ _ _ _ | beq _ _ _ | bne _ _ _ | blez _ _ _ | bgtz _ _ _ => cases hi
  | _ => exact h

/-- Settles O50: the transfers set `pc` from their own state, everything else leaves it as the preamble did. -/
theorem onlyTransfersRedirectPc : Obligations.OnlyTransfersRedirectPc := by
  intro s t w i _ hw hi h _
  have hir : t.ir = s.pc := (effect_of_engineStep h).untouched.ir
  rw [engineStep_instr hw hi] at h
  have hpc := exec_pcAfter h
  refine ⟨hir, fun hplain => hir ▸ hpc.eq_of_not_transfer hplain, ?_⟩
  have hbranch (imm : BitVec 16) (hb : t.pc = (preamble s).pc ∨ t.pc = branchTarget (preamble s) imm) :
      t.pc = t.ir + 1#32 ∨ t.pc = BitVec.ofInt 32 (t.ir.toNat + s.params.branchBase.val + imm.toInt) := by
    rw [branchTarget_eq_ofInt] at hb
    rw [hir]
    exact hb
  cases i with
  | j target | jal target => exact hpc.trans (jumpTarget_eq_ofNat target)
  | jr rs _ _ _ | jalr rs _ _ _ => exact hpc.trans (readReg_preamble s rs)
  | beq _ _ imm | bne _ _ imm | blez _ _ imm | bgtz _ _ imm => exact hbranch imm hpc
  | _ => rfl

/-! ### lastWrite (R30) -/

/-- A register result is the only effect on a register, and it names a destination that it changes. -/
theorem Effect.lastWrite_of_readReg_ne {s t : State} {r : RegIdx} (h : Effect s t) (hr : readReg t r ≠ readReg s r) :
    t.lastWrite = some r := by
  have hwrite (d : RegIdx) (v : Word) (k : StatClass) (hne : readReg (writeResult s d v k) r ≠ readReg s r) :
      (writeResult s d v k).lastWrite = some r := by
    rw [readReg_writeResult] at hne
    obtain ⟨rfl, hd⟩ : r = d ∧ d ≠ 0 := by
      by_contra hnot
      exact hne (if_neg hnot)
    rw [writeResult_lastWrite, if_neg fun h0 => hd h0.1]
  cases h with
  | result d v k => exact hwrite d v k hr
  | link d v t k => exact hwrite d v k hr
  | _ => exact absurd rfl hr

/-- Settles O51: the preamble changes no register's value, and the instruction's one write is recorded. -/
theorem lastWriteNamesTheWrittenRegister : Obligations.LastWriteNamesTheWrittenRegister := by
  intro s t _ h _ r hr
  rw [← readReg_preamble s r] at hr
  exact (effect_of_engineStep h).lastWrite_of_readReg_ne hr

end Sys2Proof.Machine
end

section
/-! PROOFS. A step of the machine: which engine step it runs, what it never changes, and what a fatal error in it leaves. -/

namespace Sys2Proof.Machine
open Sys2Proof.Stated

/-! ### The engine step of a step -/

/-- Settles O35: the fetched word is the one that is peeked, and a decoded instruction is well-formed. -/
theorem stepRunsDecodedInstruction : Obligations.StepRunsDecodedInstruction := by
  intro s w i hh hf hw hi
  refine ⟨wellFormed_of_decode hi, fun hp => ?_, fun hp => ?_⟩
  · rw [step_ready hh hf hp hw, engineStep_instr hw hi]
  · rw [step_execB hh hf hp, engineStep_instr hw hi]

/-- Settles O37: an ended machine takes no step, and any other always has one. -/
theorem stepsStartExactlyWhileRunning : Obligations.StepsStartExactlyWhileRunning := fun _ =>
  ⟨step_of_halted, fun hh _ => step_of_fault hh, step_next⟩

/-- A fatal error of the engine step is the end of the step, in either phase. -/
theorem step_eq_of_engineStep_fault {s u : State} (hh : s.halted = false) (hf : s.fault = none) (hpeek : peek s ≠ none)
    (hu : engineStep s = .next u) (hfault : u.fault ≠ none) : step s = .next u := by
  have hsome : u.fault.isSome = true := Option.isSome_iff_ne_none.2 hfault
  cases hp : s.phase with
  | ready =>
    obtain ⟨a, ha⟩ := Option.ne_none_iff_exists'.1 hpeek
    rw [step_ready hh hf hp ha, hu, onNext_next, afterFirst, if_pos hsome]
  | execB => rw [step_execB hh hf hp, hu, onNext_next, afterSecond, if_pos hsome]

/-- Settles O38: the malformed word's fatal error ends the step, and the state it leaves has ended. -/
theorem malformedWordIsFatalWhenExecuted : Obligations.MalformedWordIsFatalWhenExecuted := by
  intro s w k hh hf hw hk
  have hstep := step_eq_of_engineStep_fault hh hf (by rw [peek, hw]; nofun) (engineStep_malformed hw hk) nofun
  exact ⟨_, hstep, ⟨rfl, rfl, rfl, rfl⟩, step_of_fault hh rfl⟩

/-- Settles O39: the peek comes before the engine step. -/
theorem peekOutOfBoundsIsFatal : Obligations.PeekOutOfBoundsIsFatal := fun s hh hf hp hoob =>
  ⟨peekFault s, step_ready_oob hh hf hp ((Memory.read_eq_none_iff _ _).2 hoob), rfl, rfl, rfl, rfl⟩

/-! ### A word placed for the next step (log 20) -/

theorem withFetchWord_read (s : State) (nbits w : Nat) : (s.withFetchWord nbits w).mem.read s.pc = some (wordOfTable nbits w) := by
  have hbound : s.pc.toNat < (s.withFetchWord nbits w).mem.len := lt_max_of_lt_right (Nat.lt_succ_self _)
  rw [Memory.read, Memory.inBounds, decide_eq_true hbound, if_pos rfl]
  exact congrArg some ((lookupCell_setCell ..).trans (if_pos rfl))

theorem decode_of_decodeTableWord {nbits w : Nat} {i : Instr} (h : decodeTableWord nbits w = some i) :
    decode (wordOfTable nbits w) = .instr i := by
  unfold decodeTableWord at h
  split at h
  · rename_i hd
    cases h
    exact hd
  · cases h

/-- In a running machine with `pc` in bounds the placing is one write. -/
theorem withFetchWord_eq_setMem {s : State} (nbits w : Nat) (hrun : running s = true) (hpc : s.pc.toNat < s.mem.len) :
    ∃ m, s.mem.write s.pc (wordOfTable nbits w) = some m ∧ s.withFetchWord nbits w = setMem s m := by
  obtain ⟨hh, hf⟩ : s.halted = false ∧ s.fault = none := by simpa [running] using hrun
  refine ⟨_, if_pos (decide_eq_true hpc), ?_⟩
  rw [State.withFetchWord, max_eq_left hpc, ← hh, ← hf]
  rfl

/-- Settles O36: the placed word is read at `pc`, and the placing ends neither machine nor run. -/
theorem placedWordIsWhatRunsNext : Obligations.PlacedWordIsWhatRunsNext := fun s w _ hi =>
  ⟨engineStep_instr (withFetchWord_read s 32 w) (decode_of_decodeTableWord hi), rfl, withFetchWord_read s 32 w,
    withFetchWord_eq_setMem 32 w⟩

/-! ### What no step changes -/

/-- Settles O48: no instruction touches MEMLEN or the parameters, and MEMLEN alone decides what is in bounds. -/
theorem stepKeepsMemLenAndParameters : Obligations.StepKeepsMemLenAndParameters := by
  intro s t h
  obtain ⟨hlen, hparams⟩ : t.mem.len = s.mem.len ∧ t.params = s.params := by
    rcases step_engine h with ⟨rfl, -⟩ | ⟨u, -, he, ⟨hmem, hparams, -⟩, -⟩
    · exact ⟨rfl, rfl⟩
    · rw [hmem, hparams]
      exact ⟨he.untouched.memLen, he.untouched.params⟩
  exact ⟨hlen, hparams, fun a => by rw [Memory.read_isSome, Memory.read_isSome, Memory.inBounds, Memory.inBounds, hlen]⟩

/-- An engine step changes the store only by the write of an sw that it fetched. -/
theorem engineStep_mem {s u : State} (h : engineStep s = .next u) :
    u.mem = s.mem ∨ ∃ w rs rt imm, s.mem.read s.pc = some w ∧ decode w = .instr (.sw rs rt imm) ∧
      s.mem.write (wordIndex s rs imm) (readReg s rt) = some u.mem := by
  cases hw : s.mem.read s.pc with
  | none =>
    rw [engineStep_oob hw] at h
    cases h
    exact Or.inl rfl
  | some w =>
    cases hd : decode w with
    | malformed k =>
      rw [engineStep_malformed hw hd] at h
      cases h
      exact Or.inl rfl
    | instr i =>
      rw [engineStep_instr hw hd] at h
      rcases exec_mem h with hmem | ⟨rs, rt, imm, rfl, hwrite⟩
      · exact Or.inl hmem
      · rw [effAddr_eq_wordIndex, wordIndex_preamble, readReg_preamble] at hwrite
        exact Or.inr ⟨w, rs, rt, imm, rfl, hd, hwrite⟩

/-- Settles O49: the one write of a step leaves every other index. -/
theorem onlyStoresChangeMemory : Obligations.OnlyStoresChangeMemory := by
  refine ⟨fun i s t hi h => ?_, fun s t a h hne => ?_⟩
  · rcases exec_mem h with hmem | ⟨rs, rt, imm, rfl, -⟩
    · exact hmem
    · exact absurd rfl (hi rs rt imm)
  · rcases step_engine h with ⟨rfl, -⟩ | ⟨u, hu, -, ⟨hmem, -⟩, -⟩
    · exact absurd rfl hne
    · rw [hmem] at hne
      rcases engineStep_mem hu with hkept | ⟨w, rs, rt, imm, hw, hd, hwrite⟩
      · exact absurd (by rw [hkept]) hne
      · obtain ⟨-, -, -, hother⟩ := Memory.write_spec hwrite
        exact ⟨w, rs, rt, imm, hw, hd, not_not.1 fun ha => hne (hother a ha)⟩

/-! ### HALT (R28) -/

theorem engineStep_halted_iff {s u : State} (hh : s.halted = false) (h : engineStep s = .next u) :
    u.halted = true ↔ s.mem.read s.pc = some haltWord := by
  cases hw : s.mem.read s.pc with
  | none =>
    rw [engineStep_oob hw] at h
    cases h
    simp [hh]
  | some w =>
    rw [Option.some.injEq, ← decode_eq_instr_halt_iff]
    cases hd : decode w with
    | malformed k =>
      rw [engineStep_malformed hw hd] at h
      cases h
      simp [hh]
    | instr i =>
      rw [engineStep_instr hw hd] at h
      rw [exec_halted h hh, Decoded.instr.injEq]

/-- Settles O52: a launch is running, HALT alone sets `halted`, and a halted machine takes no step. -/
theorem haltedIsSetByTheHaltWordAlone : Obligations.HaltedIsSetByTheHaltWordAlone := by
  refine ⟨fun _ _ _ => rfl, fun s t h => ?_, fun s => step_of_halted⟩
  obtain ⟨hh, -, -⟩ := step_cases h
  rcases step_engine h with ⟨rfl, hpeek, -⟩ | ⟨u, hu, -, ⟨-, -, hhalted, -⟩, -⟩
  · have hread : s.mem.read s.pc = none := hpeek
    simp [peekFault, hh, hread]
  · rw [hhalted]
    exact engineStep_halted_iff hh hu

/-! ### Counters (R33, R34, R203) -/

/-- The observer's part of a step from `s` to `t`, fatal errors first: nothing is tallied, the cycle is left open, or the class `c` is
tallied (R170, R183). -/
inductive StepTally (s t : State) : Prop where
  | faulted (hfault : t.fault ≠ none) (hhalted : t.halted = false) (hphase : t.phase = .ready) (hpipe : t.pipe = s.pipe)
      (hmask : t.mask = s.mask)
  | opened (hfault : t.fault = none) (hhalted : t.halted = false) (hready : s.phase = .ready) (hphase : t.phase = .execB)
      (hpipe : t.pipe = s.pipe) (hmask : t.mask = s.mask)
      (hsecond : ∃ a u, peek s = some a ∧ engineStep s = .next u ∧ isControl a = false ∧ (peek u).isSome = true ∧
        t = setPhase u .execB)
  | tallied (c : IssueClass) (hfault : t.fault = none) (hphase : t.phase = .ready) (hdual : c = .dual ↔ s.phase = .execB)
      (halone : c = .haltAlone → t.halted = true) (hpipe : t.pipe = (tally s c.mask).pipe) (hmask : t.mask = c.mask)

theorem stepTally_of_step {s t : State} (h : step s = .next t) : StepTally s t := by
  have htally {u : State} (he : Effect (preamble s) u) (m : BitVec 6) : (tally u m).pipe = (tally s m).pipe := by
    rw [tally, he.untouched.pipe]
    rfl
  obtain ⟨hh, hf, hcase⟩ := step_cases h
  cases hcase with
  | peekFirst _ _ ht =>
    subst ht
    exact .faulted nofun hh rfl rfl rfl
  | first a u hp ha hstep he ht =>
    obtain ⟨hend, -, hready⟩ := he.ended hf hh
    have hafter := afterFirst_cases a u
    rw [← ht] at hafter
    cases hafter with
    | faulted hu => exact .faulted hu (Bool.eq_false_iff.2 (mt hend hu)) (hready hu) he.untouched.pipe he.untouched.mask
    | peekFault _ _ hrun _ => exact .faulted nofun hrun rfl he.untouched.pipe he.untouched.mask
    | second hc hu hrun hpeek =>
      exact .opened hu hrun hp rfl he.untouched.pipe he.untouched.mask ⟨a, u, ha, hstep, hc, hpeek, rfl⟩
    | haltAlone hu hhalt => exact .tallied .haltAlone hu rfl (by simp [hp]) (fun _ => hhalt) (htally he _) rfl
    | stopped c hu _ hdual halone => exact .tallied c hu rfl (by simp [hp, hdual]) (fun hc => absurd hc halone) (htally he _) rfl
  | second u hp _ he ht =>
    obtain ⟨hend, -, hready⟩ := he.ended hf hh
    rcases afterSecond_cases u with ⟨hu, hafter⟩ | ⟨hu, hafter⟩ <;> rw [hafter] at ht <;> subst ht
    · exact .faulted hu (Bool.eq_false_iff.2 (mt hend hu)) (hready hu) he.untouched.pipe he.untouched.mask
    · exact .tallied .dual hu rfl (by simp [hp]) nofun (htally he _) rfl

/-- Settles O41: a tally follows no fatal error, and the engine step that raises one counts nothing. -/
theorem fatalErrorLeavesTheCounters : Obligations.FatalErrorLeavesTheCounters := by
  intro s t h hfault
  obtain ⟨hh, hf, -⟩ := step_cases h
  obtain ⟨hpipe, hmask⟩ : t.pipe = s.pipe ∧ t.mask = s.mask := by
    cases stepTally_of_step h with
    | faulted _ _ _ hpipe hmask => exact ⟨hpipe, hmask⟩
    | opened hnone | tallied _ hnone => exact absurd hnone hfault
  refine ⟨hpipe, hmask, ?_⟩
  rcases step_engine h with ⟨rfl, -⟩ | ⟨u, hu, he, ⟨-, -, -, hstats, -⟩, hsame | ⟨hnone, hpeek, rfl⟩⟩
  · exact Or.inl rfl
  · exact Or.inl (hstats.trans ((he.counted hf hh).2 (hsame ▸ hfault)))
  · exact Or.inr ⟨u, hu, hnone, hpeek, rfl, rfl⟩

/-- An instruction's effect on the statistics counters is to count itself once or not at all. -/
theorem Effect.stats {s t : State} (h : Effect s t) : t.stats = s.stats ∨ ∃ k, t.stats = countInstr s.stats k := by
  cases h with
  | result d v k => exact Or.inr ⟨k, writeResult_stats s d v k⟩
  | link d v t k => exact Or.inr ⟨k, writeResult_stats s d v k⟩
  | jump t k => exact Or.inr ⟨k, rfl⟩
  | untaken k => exact Or.inr ⟨k, rfl⟩
  | store m a v k h => exact Or.inr ⟨k, rfl⟩
  | halt => exact Or.inl rfl
  | fatal r => exact Or.inl rfl

/-- R34, the eight counters. -/
def statCounters : List (StatCounters → Nat) :=
  [StatCounters.instrCount, StatCounters.aluCount, StatCounters.loadCount, StatCounters.storeCount, StatCounters.jumpCount,
    StatCounters.jalCount, StatCounters.branchTakenCount, StatCounters.branchUntakenCount]

/-- R33, the six counters. -/
def pipelineCounters : List (PipelineCounters → Nat) :=
  [PipelineCounters.issueCycles, PipelineCounters.doubleIssues, PipelineCounters.controlStops, PipelineCounters.structuralStops,
    PipelineCounters.dataStops, PipelineCounters.overlaps]

theorem countInstr_grows (c : StatCounters) (k : StatClass) :
    ∀ f ∈ statCounters, f c ≤ f (countInstr c k) ∧ f (countInstr c k) ≤ f c + 1 := by
  cases k <;> simp [statCounters, countInstr]

theorem maskBit_le_one (m : BitVec 6) (n : Nat) : maskBit m n ≤ 1 := Bool.toNat_le _

theorem tally_grows (s : State) (m : BitVec 6) :
    ∀ f ∈ pipelineCounters, f s.pipe ≤ f (tally s m).pipe ∧ f (tally s m).pipe ≤ f s.pipe + 1 := by
  simp [pipelineCounters, maskBit_le_one]

/-- Settles O47: a step tallies at most one class and counts at most one instruction. -/
theorem countersOnlyGrow : Obligations.CountersOnlyGrow := by
  refine ⟨fun i s t h => ?_, fun s t h => ⟨?_, ?_⟩⟩
  · obtain ⟨u, hu, he⟩ := exec_effect i s
    rw [hu] at h
    cases h
    exact ⟨he.untouched.pipe, he.untouched.mask⟩
  · change ∀ f ∈ pipelineCounters, _
    cases stepTally_of_step h with
    | faulted _ _ _ hpipe _ | opened _ _ _ _ hpipe _ =>
      rw [hpipe]
      exact fun f _ => ⟨le_refl _, Nat.le_succ _⟩
    | tallied c _ _ _ _ hpipe _ =>
      rw [hpipe]
      exact tally_grows s c.mask
  · change ∀ f ∈ statCounters, _
    obtain hkept | ⟨k, hk⟩ : t.stats = s.stats ∨ ∃ k, t.stats = countInstr s.stats k := by
      rcases step_engine h with ⟨rfl, -⟩ | ⟨u, -, he, ⟨-, -, -, hstats, -⟩, -⟩
      · exact Or.inl rfl
      · rw [hstats]
        exact he.stats
    · rw [hkept]
      exact fun f _ => ⟨le_refl _, Nat.le_succ _⟩
    · rw [hk]
      exact countInstr_grows s.stats k

end Sys2Proof.Machine
end

section
/-! PROOFS. The observer (45_dual_issue_observer.md): the classes of a word in the decoder's terms, the read sets, and what each
classification of a pair leaves. -/

namespace Sys2Proof.Machine
open Sys2Proof.Stated

/-! ### Control transfers and HALT (R172, R173, R178) -/

/-- The observer's control class is HALT and the transfers. -/
theorem isControl_of_decode {w : Word} {i : Instr} (h : decode w = .instr i) : isControl w = (decide (i = .halt) || isTransfer i) := by
  rw [isControl_of_opOfWord (opOfWord_of_decode h)]
  cases i <;> rfl

theorem isHalt_of_decode {w : Word} {i : Instr} (h : decode w = .instr i) : isHalt w = decide (i = .halt) := by
  have hw : w = haltWord ↔ i = .halt := by rw [← decode_eq_instr_halt_iff, h, Decoded.instr.injEq]
  rw [isHalt, beq_eq_decide]
  exact decide_eq_decide.2 hw

/-- A fatal error is raised by lw and sw alone, so by no transfer. -/
theorem exec_transfer_fault {i : Instr} {s t : State} (h : exec i s = .next t) (hf : s.fault = none) (hi : isTransfer i = true) :
    t.fault = none := by
  cases hr : t.fault with
  | none => rfl
  | some r =>
    obtain ⟨-, rs, rt, imm, -, ⟨rfl, -⟩ | ⟨rfl, -⟩⟩ := exec_fatal h hf hr <;> cases hi

theorem afterFirst_of_halted {a : Word} {u : State} (hf : u.fault = none) (hh : u.halted = true) :
    afterFirst a u = tally u IssueClass.haltAlone.mask := by
  simp [afterFirst, hf, hh]

theorem afterFirst_of_control {a : Word} {u : State} (hf : u.fault = none) (hh : u.halted = false) (hc : isControl a = true) :
    afterFirst a u = tally u IssueClass.control.mask := by
  simp [afterFirst, hf, hh, hc]

/-- R180 in R33's terms: what a tally adds, bit by bit. -/
theorem tally_tallied {s u : State} (h : u.pipe = s.pipe) (m : BitVec 6) :
    Tallied s.pipe (tally u m).pipe (maskBit m 0) (maskBit m 1) (maskBit m 2) (maskBit m 3) (maskBit m 4) := by
  simp [Tallied, h]

/-- Settles O53: after a transfer or HALT the observer peeks no second word. -/
theorem controlTransferOrHaltEndsTheCycle : Obligations.ControlTransferOrHaltEndsTheCycle := by
  intro s a i hh hf hp ha hi
  obtain ⟨u, hexec, he⟩ := exec_effect i (preamble s)
  have hstep : step s = .next (afterFirst a u) := by
    rw [step_ready hh hf hp ha, engineStep_instr ha hi, hexec, onNext_next]
  have hpipe : u.pipe = s.pipe := he.untouched.pipe
  have hhalted : u.halted = true ↔ i = .halt := exec_halted hexec hh
  refine ⟨fun htransfer => ?_, fun hhalt => ?_⟩
  · have hfault : u.fault = none := exec_transfer_fault hexec hf htransfer
    have hrunning : u.halted = false := Bool.eq_false_iff.2 fun hu => by
      rw [hhalted.1 hu] at htransfer
      cases htransfer
    have hcontrol : isControl a = true := by rw [isControl_of_decode hi, htransfer, Bool.or_true]
    rw [afterFirst_of_control hfault hrunning hcontrol] at hstep
    exact ⟨_, hstep, rfl, tally_tallied hpipe _, rfl, hfault⟩
  · subst hhalt
    cases hexec
    rw [afterFirst_of_halted (u := setHalted (preamble s)) hf rfl] at hstep
    exact ⟨_, hstep, rfl, tally_tallied hpipe _, rfl, rfl, rfl⟩

/-! ### Hazards of a pair (R174, R175) -/

theorem isMem_iff (w : Word) : isMem w = true ↔ opcodeField w ∈ [0x23#6, 0x2B#6] := by
  simp [isMem, opcodeOf, @eq_comm _ (opcodeField w)]

theorem isMul_iff (w : Word) : isMul w = true ↔ opcodeField w = 0x1C#6 := by
  simp [isMul, opcodeOf, @eq_comm _ (opcodeField w)]

theorem structural_iff (a b : Word) : structural a b = true ↔ SharesUnit a b := by
  rw [structural, Bool.or_eq_true, Bool.and_eq_true, Bool.and_eq_true, isMem_iff, isMem_iff, isMul_iff, isMul_iff, SharesUnit]

theorem dataDep_iff (u : State) (b : Word) : dataDep u.params u.lastWrite b = true ↔ DataDependent u b := by
  unfold dataDep DataDependent
  cases u.lastWrite <;> simp

/-! ### The classification of a pair (R170, R179, R181) -/

/-- What the observer classifies a pair as. -/
def pairClass (u : State) (a b : Word) : IssueClass := classify u.params a u.lastWrite b

section Pair
variable {s u : State} {a b : Word} (h : PairAt s u a b)
include h

/-- The first instruction of a pair is no HALT and no transfer. -/
theorem pairAt_control : isControl a = false ∧ isHalt a = false := by
  obtain ⟨i, hd, hne, hplain⟩ := h.plain
  have hhalt : decide (i = .halt) = false := decide_eq_false hne
  exact ⟨by rw [isControl_of_decode hd, hhalt, hplain, Bool.or_false], by rw [isHalt_of_decode hd, hhalt]⟩

theorem pairAt_halted : u.halted = false := by
  obtain ⟨i, hd, hne, -⟩ := h.plain
  have hexec : exec i (preamble s) = .next u := engineStep_instr h.first hd ▸ h.ran
  exact Bool.eq_false_iff.2 fun hu => hne ((exec_halted hexec h.running.1).1 hu)

theorem pairAt_pipe : u.pipe = s.pipe := (effect_of_engineStep h.ran).untouched.pipe

/-- The priorities of R173 to R177, once HALT and the transfers are excluded. -/
theorem pairClass_eq : pairClass u a b =
    if structural a b then if dataDep u.params u.lastWrite b then .structuralOverlap else .structural
    else if dataDep u.params u.lastWrite b then .data else .dual := by
  obtain ⟨hcontrol, hhalt⟩ := pairAt_control h
  rw [pairClass, classify, hcontrol, hhalt]
  rfl

theorem pairAt_step : step s = .next (afterFirst a u) := by
  obtain ⟨hh, hf⟩ := h.running
  rw [step_ready hh hf h.ready h.first, h.ran, onNext_next]

theorem pairAt_step_stop (hc : pairClass u a b ≠ .dual) : step s = .next (tally u (pairClass u a b).mask) := by
  rw [pairAt_step h]
  simp only [afterFirst, h.clean, pairAt_halted h, (pairAt_control h).1, h.second]
  rw [pairClass] at hc ⊢
  generalize classify u.params a u.lastWrite b = c at hc ⊢
  cases c with
  | dual => exact absurd rfl hc
  | _ => rfl

theorem pairAt_step_dual (hc : pairClass u a b = .dual) : step s = .next (setPhase u .execB) := by
  rw [pairAt_step h]
  rw [pairClass] at hc
  simp [afterFirst, h.clean, pairAt_halted h, (pairAt_control h).1, h.second, hc]

end Pair

theorem sameEngine_tally (u : State) (m : BitVec 6) : SameEngine (tally u m) u :=
  ⟨fun _ => rfl, rfl, rfl, rfl, rfl, rfl, rfl, rfl⟩

theorem sameEngine_setPhase (u : State) (p : Phase) : SameEngine (setPhase u p) u :=
  ⟨fun _ => rfl, rfl, rfl, rfl, rfl, rfl, rfl, rfl⟩

/-- A pair that is stopped ends the cycle where its first instruction left the engine, with the tally of its class. -/
theorem pairAt_stopped {s u : State} {a b : Word} {c : IssueClass} (h : PairAt s u a b) (hc : pairClass u a b = c) (hd : c ≠ .dual) :
    ∃ t, step s = .next t ∧ SameEngine t u ∧ t.mask = c.mask ∧
      Tallied s.pipe t.pipe (maskBit c.mask 0) (maskBit c.mask 1) (maskBit c.mask 2) (maskBit c.mask 3) (maskBit c.mask 4) ∧
      t.phase = .ready := by
  subst hc
  exact ⟨_, pairAt_step_stop h hd, sameEngine_tally u _, rfl, tally_tallied (pairAt_pipe h) _, rfl⟩

/-- Settles O54: the structural test comes before the data dependency, which decides the overlap. -/
theorem sharedUnitIsAStructuralStop : Obligations.SharedUnitIsAStructuralStop := by
  intro s u a b h hshared
  have hclass := pairClass_eq h
  rw [if_pos ((structural_iff a b).2 hshared)] at hclass
  refine ⟨fun hdep => ?_, fun hindep => ?_⟩
  · rw [if_pos ((dataDep_iff u b).2 hdep)] at hclass
    exact pairAt_stopped h hclass nofun
  · rw [if_neg (mt (dataDep_iff u b).1 hindep)] at hclass
    exact pairAt_stopped h hclass nofun

/-- Settles O55: without a shared unit the data dependency decides. -/
theorem dependenceIsADataStop : Obligations.DependenceIsADataStop := by
  intro s u a b h hunshared hdep
  have hclass := pairClass_eq h
  rw [if_neg (mt (structural_iff a b).1 hunshared), if_pos ((dataDep_iff u b).2 hdep)] at hclass
  exact pairAt_stopped h hclass nofun

/-- The second step of a cycle is the bare engine step from where the first left the engine, and then a tally unless it faulted. -/
theorem step_setPhase_execB {u : State} (hh : u.halted = false) (hf : u.fault = none) :
    ∃ w, engineStep u = .next w ∧
      ((w.fault = none ∧ step (setPhase u .execB) = .next (tally w IssueClass.dual.mask)) ∨
        (w.fault ≠ none ∧ step (setPhase u .execB) = .next w)) := by
  obtain ⟨w, hw, hcase⟩ := engineStep_setPhase u .execB hf
  have hstep : step (setPhase u .execB) = onNext afterSecond (engineStep (setPhase u .execB)) := step_execB hh hf rfl
  refine ⟨w, hw, ?_⟩
  rcases hcase with ⟨hnone, hrun⟩ | ⟨hfault, hrun⟩ <;> rw [hrun, onNext_next] at hstep
  · refine Or.inl ⟨hnone, hstep.trans ?_⟩
    rw [afterSecond, if_neg (by simp [hnone])]
    rfl
  · refine Or.inr ⟨hfault, hstep.trans ?_⟩
    rw [afterSecond, if_pos (Option.isSome_iff_ne_none.2 hfault)]

/-- Settles O56: an unstopped pair leaves the cycle open, and the second instruction closes it or faults. -/
theorem independentPairIsDualIssued : Obligations.IndependentPairIsDualIssued := by
  intro s u a b h hunshared hindep
  have hclass := pairClass_eq h
  rw [if_neg (mt (structural_iff a b).1 hunshared), if_neg (mt (dataDep_iff u b).1 hindep)] at hclass
  have hpipe := pairAt_pipe h
  have hmask : u.mask = s.mask := (effect_of_engineStep h.ran).untouched.mask
  have hh := pairAt_halted h
  obtain ⟨w, hw, hcase⟩ := step_setPhase_execB hh h.clean
  have heffect := effect_of_engineStep hw
  have hwpipe : w.pipe = s.pipe := heffect.untouched.pipe.trans hpipe
  have hwmask : w.mask = s.mask := heffect.untouched.mask.trans hmask
  rcases hcase with ⟨hnone, hsecond⟩ | ⟨hfault, hsecond⟩
  · exact ⟨_, _, w, pairAt_step_dual h hclass, sameEngine_setPhase u _, hpipe, hmask, rfl, hw, hsecond, rfl,
      fun _ => ⟨sameEngine_tally w _, rfl, tally_tallied hwpipe _, rfl⟩, fun hfault => absurd hnone hfault⟩
  · exact ⟨_, _, w, pairAt_step_dual h hclass, sameEngine_setPhase u _, hpipe, hmask, rfl, hw, hsecond, rfl,
      fun hnone => absurd hnone hfault, fun _ => ⟨(heffect.counted h.clean hh).2 hfault, hwpipe, hwmask⟩⟩

/-! ### Read sets (R176) -/

theorem reads_encode {i : Instr} (hwf : i.wellFormed = true) (p : Params) : reads p (encode i) = readsOfOp p i.op (encode i) := by
  rw [reads, opOfWord_of_decode (encodeThenDecodeIsIdentity i hwf)]

/-- The three shifts share their row, whose second register is the parameter's choice (D12). -/
theorem shiftReads_rWord (p : Params) (o : Op) (rs rt rd : RegIdx) (shamt : BitVec 5) :
    rtField (rWord o rs rt rd shamt) :: shiftExtraReads p (rWord o rs rt rd shamt) = readSet p (.sll rs rt rd shamt) := by
  unfold shiftExtraReads readSet
  cases p.shiftExtraRead <;> simp [rWord]

/-- The observer's table by name and the spec's by operand are the same rows. -/
theorem readsOfOp_encode (p : Params) (i : Instr) : readsOfOp p i.op (encode i) = readSet p i := by
  cases i with
  | sll _ _ _ _ | srl _ _ _ _ | sra _ _ _ _ => exact shiftReads_rWord ..
  | _ => simp [Instr.op, readsOfOp, encode, rWord, iWord, readSet]

/-- Settles O57: a well-formed word is dispatched to its instruction, a malformed one by its kind. -/
theorem readSetsAreTheTables : Obligations.ReadSetsAreTheTables := by
  refine ⟨fun p i hwf r => ?_, fun p w k hk r => ?_⟩
  · rw [reads_encode hwf, readsOfOp_encode]
  · have hop := opOfWord_of_decode_malformed hk
    have hillegal := illegalAs_of_decode hk
    cases k with
    | badMulFunct =>
      obtain ⟨hmul, -⟩ := hillegal
      simp [reads, hop, hmul]
    | unknownFunct =>
      obtain ⟨hspecial, -⟩ := hillegal
      simp [reads, hop, hspecial]
    | unknownOpcode =>
      have hne : opcodeField w ≠ 0x1C#6 := fun e => hillegal (by rw [e]; decide)
      simp [reads, hop, hne]

end Sys2Proof.Machine
end

section
/-! PROOFS. What every step keeps: the state's shape and the counter identities (10_state.md, 45_dual_issue_observer.md section 4). -/

namespace Sys2Proof.Machine
open Sys2Proof.Stated

/-! ### The state's shape -/

/-- The first instruction of an open cycle is no transfer, so `pc` follows `ir`. -/
theorem engineStep_pc_of_not_control {s u : State} {a : Word} (ha : peek s = some a) (hu : engineStep s = .next u) (hf : u.fault = none)
    (hc : isControl a = false) : u.pc = u.ir + 1#32 := by
  obtain ⟨w, i, hw, hi, hexec⟩ := engineStep_completed hu hf
  obtain rfl : a = w := Option.some.inj (ha.symm.trans hw)
  have hplain : isTransfer i = false := by
    rw [isControl_of_decode hi] at hc
    exact (Bool.or_eq_false_iff.1 hc).2
  have hir : u.ir = s.pc := (effect_of_engineStep hu).untouched.ir
  rw [hir]
  exact (exec_pcAfter hexec).eq_of_not_transfer hplain

/-- The engine's part of the shape: the store's canonical form, and the storage of register 0, which the preamble zeroes. -/
theorem step_storage {s t : State} (hmem : s.mem.wf) (hslot : s.regs[0] = 0#32) (h : step s = .next t) : t.mem.wf ∧ t.regs[0] = 0#32 := by
  rcases step_engine h with ⟨rfl, -⟩ | ⟨u, -, he, ⟨hm, -, -, -, hr, -⟩, -⟩
  · exact ⟨hmem, hslot⟩
  · rw [hm, hr]
    exact ⟨he.memory_wf hmem, he.untouched.slotZero.trans (preamble_slotZero s)⟩

/-- Settles O42: the engine step keeps the storage, an ended machine is READY, and only an open cycle leaves phase READY. -/
theorem everyStepKeepsTheStateInvariant : Obligations.EveryStepKeepsTheStateInvariant := by
  intro s t hinv h
  obtain ⟨hmem, hslot⟩ := step_storage hinv.memory hinv.slotZero h
  cases stepTally_of_step h with
  | faulted _ hrun hready =>
    exact ⟨hmem, hslot, fun hh => absurd (hrun.symm.trans hh) nofun, fun _ => hready, fun he => absurd (hready.symm.trans he) nofun⟩
  | opened hnone hrun _ _ _ _ hsecond =>
    obtain ⟨a, u, ha, hu, hc, hpeek, rfl⟩ := hsecond
    have hpc := engineStep_pc_of_not_control ha hu hnone hc
    exact ⟨hmem, hslot, fun hh => absurd (hrun.symm.trans hh) nofun, fun hfault => absurd hnone hfault, fun _ => ⟨hpeek, hpc⟩⟩
  | tallied _ hnone hready =>
    exact ⟨hmem, hslot, fun _ => ⟨hnone, hready⟩, fun _ => hready, fun he => absurd (hready.symm.trans he) nofun⟩

/-! ### The counter identities -/

theorem countInstr_classSum {c : StatCounters} (h : c.instrCount = classSum c) (k : StatClass) :
    (countInstr c k).instrCount = classSum (countInstr c k) := by
  cases k <;> simp only [countInstr, classSum] at h ⊢ <;> omega

/-- The engine's part of the identities (R34). -/
theorem step_classes {s t : State} (h : step s = .next t) (hclasses : s.stats.instrCount = classSum s.stats) :
    t.stats.instrCount = classSum t.stats := by
  rcases step_engine h with ⟨rfl, -⟩ | ⟨u, -, he, ⟨-, -, -, hstats, -⟩, -⟩
  · exact hclasses
  · rw [hstats]
    rcases he.stats with hkept | ⟨k, hk⟩
    · rw [hkept]
      exact hclasses
    · rw [hk]
      exact countInstr_classSum hclasses k

/-- The instructions that the observer accounts for: one in each cycle, a second in each double issue, and one in an open cycle (R185). -/
def accounted (s : State) : Nat := s.pipe.issueCycles + s.pipe.doubleIssues + countIf (s.phase == .execB)

/-- Only a dual issue has bit 0 in its mask (R179). -/
theorem maskBit_zero_mask (c : IssueClass) : maskBit c.mask 0 = countIf (c == .dual) := by
  cases c <;> rfl

/-- A step without a fatal error accounts for one more instruction. -/
theorem step_accounted {s t : State} (h : step s = .next t) (hf : t.fault = none) : accounted t = accounted s + 1 := by
  unfold accounted
  cases stepTally_of_step h with
  | faulted hfault => exact absurd hf hfault
  | opened _ _ hready hphase hpipe _ =>
    rw [hpipe, hphase, hready]
    rfl
  | tallied c _ hphase hdual _ hpipe _ =>
    have hsame : countIf (c == .dual) = countIf (s.phase == .execB) := by
      rw [beq_eq_decide, beq_eq_decide]
      exact congrArg countIf (decide_eq_decide.2 hdual)
    rw [hpipe, hphase, tally_issueCycles, tally_doubleIssues, maskBit_zero_mask, hsame, ready_beq_execB, countIf_false]
    omega

/-- The observer's part of the identities: those of the pipeline counters and `mask` alone (R178, R179, R185). -/
structure TallyInv (c : PipelineCounters) (m : BitVec 6) : Prop where
  stops : c.controlStops + c.structuralStops + c.dataStops + c.doubleIssues + countIf (m == 0x20#6) = c.issueCycles
  overlaps : c.overlaps ≤ c.structuralStops
  maskRange : m ∈ maskValues
  maskFresh : m = 0x00#6 ↔ c.issueCycles = 0

theorem tallyInv_of_counterInv {s : State} (h : CounterInv s) : TallyInv s.pipe s.mask :=
  ⟨h.stops, h.overlaps, h.maskRange, h.maskFresh⟩

theorem mask_eq_haltAlone {c : IssueClass} (h : c.mask = 0x20#6) : c = .haltAlone := by
  revert h
  cases c <;> decide

/-- R179: each class is one stop, one double issue or HALT alone, and an overlap is a structural stop too. -/
theorem mask_bits (c : IssueClass) :
    maskBit c.mask 1 + maskBit c.mask 2 + maskBit c.mask 3 + maskBit c.mask 0 + countIf (c.mask == 0x20#6) = 1 ∧
      maskBit c.mask 4 ≤ maskBit c.mask 2 ∧ c.mask ∈ maskValues ∧ c.mask ≠ 0x00#6 := by
  cases c <;> decide

theorem tally_tallyInv {s : State} (h : TallyInv s.pipe s.mask) (hmask : s.mask ≠ 0x20#6) (c : IssueClass) :
    TallyInv (tally s c.mask).pipe c.mask := by
  obtain ⟨hstops, hoverlaps, -, -⟩ := h
  obtain ⟨hone, hoverlap, hrange, hfresh⟩ := mask_bits c
  rw [beq_eq_false_iff_ne.2 hmask, countIf_false] at hstops
  constructor
  · simp only [tally_controlStops, tally_structuralStops, tally_dataStops, tally_doubleIssues, tally_issueCycles]
    omega
  · exact Nat.add_le_add hoverlaps hoverlap
  · exact hrange
  · exact iff_of_false hfresh (Nat.succ_ne_zero _)

/-- Settles O44: the counts of the engine and of the observer each rise by one instruction, and a halted machine has no step, so that
HALT_ALONE is the mask of a last cycle. -/
theorem everyStepKeepsTheCounterIdentities : Obligations.EveryStepKeepsTheCounterIdentities := by
  intro s t hinv h
  obtain ⟨hh, hf, -⟩ := step_cases h
  have hmask : s.mask ≠ 0x20#6 := fun e => by
    rw [hinv.haltAlone e] at hh
    cases hh
  obtain ⟨htally, halone⟩ : TallyInv t.pipe t.mask ∧ (t.mask = 0x20#6 → t.halted = true) := by
    cases stepTally_of_step h with
    | faulted _ _ _ hpipe hkept | opened _ _ _ _ hpipe hkept =>
      rw [hpipe, hkept]
      exact ⟨tallyInv_of_counterInv hinv, fun e => absurd e hmask⟩
    | tallied c _ _ _ hc hpipe hclass =>
      rw [hpipe, hclass]
      exact ⟨tally_tallyInv (tallyInv_of_counterInv hinv) hmask c, fun e => hc (mask_eq_haltAlone e)⟩
  have hsteps : t.fault = none → accounted t = t.stats.instrCount + countIf t.halted := fun hnone => by
    have hbefore : accounted s = s.stats.instrCount + countIf s.halted := hinv.steps hf
    rw [step_accounted h hnone, step_counts h hnone, hbefore, hh, countIf_false]
  exact ⟨step_classes h hinv.classes, hsteps, htally.stops, htally.overlaps, htally.maskRange, htally.maskFresh, halone⟩

/-! ### Runs -/

/-- What every step keeps holds after any number of steps. -/
theorem stepN_keeps {P : State → Prop} (hkeep : ∀ s t, P s → step s = .next t → P t) {k : Nat} {s t : State} (hs : P s)
    (h : stepN k s = .next t) : P t := by
  induction k generalizing s with
  | zero =>
    cases h
    exact hs
  | succ k ih =>
    rw [stepN] at h
    cases hstep : step s with
    | next u =>
      rw [hstep] at h
      exact ih (hkeep s u hs hstep) h
    | fault e => rw [hstep] at h; cases h
    | refused e => rw [hstep] at h; cases h

/-- No step follows a fatal error, so a run without one at its end has none before. -/
theorem fault_eq_none_of_stepN {k : Nat} {s t : State} (h : stepN k s = .next t) (hf : t.fault = none) : s.fault = none := by
  cases k with
  | zero =>
    cases h
    exact hf
  | succ k =>
    rw [stepN] at h
    cases hstep : step s with
    | next u => exact (step_cases hstep).2.1
    | fault e => rw [hstep] at h; cases h
    | refused e => rw [hstep] at h; cases h

/-- Each step of a run counts one instruction or the HALT step. -/
theorem stepN_counts {k : Nat} {s t : State} (h : stepN k s = .next t) (hf : t.fault = none) :
    t.stats.instrCount + countIf t.halted = s.stats.instrCount + countIf s.halted + k := by
  induction k generalizing s with
  | zero =>
    cases h
    rfl
  | succ k ih =>
    rw [stepN] at h
    cases hstep : step s with
    | next u =>
      rw [hstep] at h
      rw [ih h, step_counts hstep (fault_eq_none_of_stepN h hf), (step_cases hstep).1, countIf_false]
      omega
    | fault e => rw [hstep] at h; cases h
    | refused e => rw [hstep] at h; cases h

/-- A step that halts closes its cycle. -/
theorem step_ready_of_halted {s t : State} (h : step s = .next t) (hh : t.halted = true) : t.phase = .ready := by
  cases stepTally_of_step h with
  | faulted _ _ hready | tallied _ _ hready => exact hready
  | opened _ hrun => exact absurd (hrun.symm.trans hh) nofun

/-- Settles O46: the identities hold at launch and at the end, where a halted machine has no cycle open. -/
theorem runCountsEveryStep : Obligations.RunCountsEveryStep := by
  rintro k p image s t ⟨⟨regInit, rfl⟩, -⟩ h hf
  have hcount : t.stats.instrCount + countIf t.halted = k := by
    rw [stepN_counts h hf]
    exact Nat.zero_add k
  have hinv : CounterInv t := stepN_keeps everyStepKeepsTheCounterIdentities (launchMeetsTheCounterIdentities.1 ..) h
  have hready : t.halted = true → t.phase = .ready :=
    stepN_keeps (P := fun s => s.halted = true → s.phase = .ready) (fun _ _ _ => step_ready_of_halted)
      (fun hh => absurd hh Bool.false_ne_true) h
  refine ⟨hcount, fun hh => ?_⟩
  have hsteps := hinv.steps hf
  rw [hready hh, ready_beq_execB, countIf_false, Nat.add_zero, hcount] at hsteps
  rw [hh] at hcount
  exact ⟨hsteps, hinv.stops, hinv.overlaps, hcount⟩

end Sys2Proof.Machine
end

section
/-! PROOFS. The observer is transparent (45_dual_issue_observer.md R170, R184): an issue cycle is one or two steps, and it leaves the engine
where one or two bare engine steps leave it. -/

namespace Sys2Proof.Machine
open Sys2Proof.Stated

/-! ### A cycle is one or two steps (R170) -/

/-- Settles O58: the branches of the pseudocode are those of `afterFirst`, and the second engine step does not see the phase. -/
theorem issueCycleIsOneOrTwoSteps : Obligations.IssueCycleIsOneOrTwoSteps := by
  intro s hh hf hp
  cases ha : peek s with
  | none => simp [step_ready_oob hh hf hp ha, scheduleCycle, ha, peekFault]
  | some a =>
    obtain ⟨u, hu, he⟩ := engineStep_effect s
    have hready : u.fault ≠ none → u.phase = .ready := (he.ended hf hh).2.2
    rw [step_ready hh hf hp ha, hu, onNext_next]
    cases hfault : u.fault with
    | some r =>
      have hp' : u.phase = .ready := hready (by rw [hfault]; nofun)
      simp [scheduleCycle, afterFirst, ha, hu, hfault, hp']
    | none =>
      cases hhalt : u.halted with
      | true => simp [scheduleCycle, afterFirst, ha, hu, hfault, hhalt]
      | false =>
        cases hc : isControl a with
        | true => simp [scheduleCycle, afterFirst, ha, hu, hfault, hhalt, hc]
        | false =>
          cases hb : peek u with
          | none => simp [scheduleCycle, afterFirst, ha, hu, hfault, hhalt, hc, hb, peekFault]
          | some b =>
            cases hclass : classify u.params a u.lastWrite b with
            | dual =>
              obtain ⟨w, hw, ⟨hnone, hrun⟩ | ⟨hsome, hrun⟩⟩ := step_setPhase_execB hhalt hfault
              · simp [scheduleCycle, afterFirst, ha, hu, hfault, hhalt, hc, hb, hclass, hw, hrun, hnone]
              · have hsome' : w.fault.isSome = true := Option.isSome_iff_ne_none.2 hsome
                simp [scheduleCycle, afterFirst, ha, hu, hfault, hhalt, hc, hb, hclass, hw, hrun, hsome']
            | _ => simp [scheduleCycle, afterFirst, ha, hu, hfault, hhalt, hc, hb, hclass]

/-! ### One step (R184) -/

/-- Settles O59: the step's engine fields are the engine step's, and a peek out of bounds is the fetch out of bounds of the next engine
step. -/
theorem observerPreservesTheEngineStep : Obligations.ObserverPreservesTheEngineStep := by
  intro s t h
  rcases step_engine h with ⟨rfl, hpeek, -⟩ |
    ⟨u, hu, -, ⟨hmem, -, hhalted, hstats, hregs, hpc, hir, hlast⟩, hsame | ⟨hnone, hpeek, rfl⟩⟩
  · exact ⟨nofun, fun r hr => Or.inl ⟨_, engineStep_oob hpeek, hr⟩⟩
  · exact ⟨fun _ => ⟨u, hu, readReg_of_regs hregs, hmem, hpc, hir, hhalted, hsame, hlast, hstats⟩,
      fun r hr => Or.inl ⟨u, hu, hsame ▸ hr⟩⟩
  · exact ⟨nofun, fun r hr => Or.inr ⟨u, _, hu, hnone, engineStep_oob hpeek, hr⟩⟩

/-! ### How two runs end alike -/

theorem sameEngine_trans {s t u : State} (h : SameEngine s t) (h' : SameEngine t u) : SameEngine s u :=
  ⟨fun r => (h.regs r).trans (h'.regs r), h.mem.trans h'.mem, h.pc.trans h'.pc, h.ir.trans h'.ir, h.halted.trans h'.halted,
    h.fault.trans h'.fault, h.lastWrite.trans h'.lastWrite, h.stats.trans h'.stats⟩

theorem sameEnd_trans {s t u : State} (h : SameEnd s t) (h' : SameEnd t u) : SameEnd s u := by
  obtain ⟨hfault, hhalted, hstats, hengine⟩ := h
  obtain ⟨hfault', hhalted', hstats', hengine'⟩ := h'
  exact ⟨hfault'.trans hfault, hhalted'.trans hhalted, hstats'.trans hstats,
    fun hnone => sameEngine_trans (hengine hnone) (hengine' (hfault.trans hnone))⟩

/-- The observer's counters and mask are no part of how a run ends. -/
theorem sameEnd_setObserved (s : State) (p : PipelineCounters) (m : BitVec 6) : SameEnd s (setObserved s p m) :=
  ⟨rfl, rfl, rfl, fun _ => ⟨fun _ => rfl, rfl, rfl, rfl, rfl, rfl, rfl, rfl⟩⟩

theorem sameEnd_refl (s : State) : SameEnd s s := sameEnd_setObserved s s.pipe s.mask

/-- The fatal error of a peek out of bounds and that of the fetch after it. -/
theorem sameEnd_peekFault (s : State) : SameEnd (peekFault s) (raiseFatal (preamble s) (fetchFault s.pc)) :=
  ⟨rfl, rfl, rfl, nofun⟩

/-! ### Plain runs -/

theorem runSteps_of_ended {s : State} (h : running s = false) (n : Nat) : runSteps n s = .finished s := by
  cases n <;> simp [runSteps, h]

theorem runCycles_of_ended {s : State} (h : running s = false) (n : Nat) : runCycles n s = .finished s := by
  cases n <;> simp [runCycles, h]

theorem runSteps_step {s u : State} (hrun : running s = true) (hu : engineStep s = .next u) (n : Nat) :
    runSteps (n + 1) s = runSteps n u := by
  simp [runSteps, hrun, hu]

theorem runCycles_cycle {s t : State} (hrun : running s = true) (ht : scheduleCycle s = .next t) (n : Nat) :
    runCycles (n + 1) s = runCycles n t := by
  simp [runCycles, hrun, ht]

/-- Without fuel only an ended machine is finished. -/
theorem runSteps_zero_ne_finished {s : State} (hrun : running s = true) (t : State) : runSteps 0 s ≠ .finished t := by
  simp [runSteps, hrun]

theorem runCycles_zero_ne_finished {s : State} (hrun : running s = true) (t : State) : runCycles 0 s ≠ .finished t := by
  simp [runCycles, hrun]

/-- The observer's counters and mask pass through a plain run. -/
theorem runSteps_setObserved {n : Nat} {s t : State} (h : runSteps n s = .finished t) (p : PipelineCounters) (m : BitVec 6) :
    runSteps n (setObserved s p m) = .finished (setObserved t p m) := by
  induction n generalizing s with
  | zero =>
    cases hrun : running s with
    | true => exact absurd h (runSteps_zero_ne_finished hrun t)
    | false =>
      rw [runSteps_of_ended hrun] at h
      cases h
      exact runSteps_of_ended (s := setObserved t p m) hrun 0
  | succ n ih =>
    cases hrun : running s with
    | true =>
      obtain ⟨u, hu, hu'⟩ := engineStep_setObserved s p m
      rw [runSteps_step hrun hu] at h
      rw [runSteps_step (s := setObserved s p m) hrun hu']
      exact ih h
    | false =>
      rw [runSteps_of_ended hrun] at h
      cases h
      exact runSteps_of_ended (s := setObserved t p m) hrun _

/-- Plain runs from the two states finish under the same fuel and in the same way. -/
def RunsAlike (t u : State) : Prop :=
  ∀ n, (∀ v, runSteps n t = .finished v → ∃ w, runSteps n u = .finished w ∧ SameEnd v w) ∧
    ∀ w, runSteps n u = .finished w → ∃ v, runSteps n t = .finished v ∧ SameEnd v w

theorem runsAlike_setObserved (u : State) (p : PipelineCounters) (m : BitVec 6) : RunsAlike (setObserved u p m) u := fun _ =>
  ⟨fun v h => ⟨_, runSteps_setObserved h u.pipe u.mask, sameEnd_setObserved v _ _⟩,
    fun w h => ⟨_, runSteps_setObserved h p m, sameEnd_setObserved (setObserved w p m) w.pipe w.mask⟩⟩

/-- Two machines that have ended in the same way. -/
theorem runsAlike_of_ended {t u : State} (ht : running t = false) (hu : running u = false) (h : SameEnd t u) : RunsAlike t u := fun n => by
  rw [runSteps_of_ended ht, runSteps_of_ended hu]
  refine ⟨fun v hv => ⟨u, rfl, ?_⟩, fun w hw => ⟨t, rfl, ?_⟩⟩
  · cases hv
    exact h
  · cases hw
    exact h

/-! ### One cycle (R184) -/

theorem running_iff (s : State) : running s = true ↔ s.halted = false ∧ s.fault = none := by
  simp [running]

theorem ended_of_fault {s : State} (h : s.fault ≠ none) : running s = false :=
  Bool.eq_false_iff.2 fun hrun => h ((running_iff s).1 hrun).2

theorem engineStep_phase_ready {s u : State} (hh : s.halted = false) (hf : s.fault = none) (hp : s.phase = .ready)
    (hu : engineStep s = .next u) : u.phase = .ready := by
  obtain ⟨-, hkept, hready⟩ := (effect_of_engineStep hu).ended hf hh
  by_cases hfault : u.fault = none
  · exact (hkept hfault).trans hp
  · exact hready hfault

/-- Between two cycles a tally replaces the observer's counters and mask and nothing else. -/
theorem tally_eq_setObserved {u : State} (h : u.phase = .ready) (m : BitVec 6) : tally u m = setObserved u (tally u m).pipe m := by
  rw [setObserved, tally, ← h]

/-- An issue cycle leaves a state from which the plain run goes as from where one or two engine steps leave the machine. -/
theorem scheduleCycle_simulates {s : State} (hrun : running s = true) (hp : s.phase = .ready) :
    ∃ t, scheduleCycle s = .next t ∧ t.phase = .ready ∧
      ((∃ u, engineStep s = .next u ∧ RunsAlike t u) ∨
        ∃ u v, engineStep s = .next u ∧ running u = true ∧ engineStep u = .next v ∧ RunsAlike t v) := by
  obtain ⟨hh, hf⟩ := (running_iff s).1 hrun
  obtain ⟨t, ht⟩ := step_next hh hf
  have hcycle := issueCycleIsOneOrTwoSteps s hh hf hp
  rw [ht] at hcycle
  have hone (hready : t.phase = .ready) : scheduleCycle s = .next t := by
    rw [hcycle]
    exact if_neg (by rw [hready]; nofun)
  obtain ⟨-, -, hcase⟩ := step_cases ht
  cases hcase with
  | peekFirst _ hpeek e =>
    subst e
    exact ⟨_, hone rfl, rfl, Or.inl ⟨_, engineStep_oob hpeek,
      runsAlike_of_ended (ended_of_fault nofun) (ended_of_fault nofun) (sameEnd_peekFault s)⟩⟩
  | first a u _ _ hu _ e =>
    have hpu : u.phase = .ready := engineStep_phase_ready hh hf hp hu
    have hafter := afterFirst_cases a u
    rw [← e] at hafter
    cases hafter with
    | faulted _ => exact ⟨t, hone hpu, hpu, Or.inl ⟨t, hu, runsAlike_setObserved t t.pipe t.mask⟩⟩
    | haltAlone _ _ | stopped _ _ _ _ _ =>
      exact ⟨_, hone rfl, rfl, Or.inl ⟨u, hu, tally_eq_setObserved hpu _ ▸ runsAlike_setObserved u _ _⟩⟩
    | peekFault _ hnone hhalt hpeek =>
      exact ⟨_, hone rfl, rfl, Or.inr ⟨u, _, hu, (running_iff u).2 ⟨hhalt, hnone⟩, engineStep_oob hpeek,
        runsAlike_of_ended (ended_of_fault nofun) (ended_of_fault nofun) (sameEnd_peekFault u)⟩⟩
    | second _ hnone hhalt _ =>
      have htwo : scheduleCycle s = step (setPhase u .execB) := hcycle
      obtain ⟨w, hw, hsecond⟩ := step_setPhase_execB hhalt hnone
      have hpw : w.phase = .ready := engineStep_phase_ready hhalt hnone hpu hw
      rcases hsecond with ⟨-, hstep⟩ | ⟨-, hstep⟩
      · exact ⟨_, htwo.trans hstep, rfl, Or.inr ⟨u, w, hu, (running_iff u).2 ⟨hhalt, hnone⟩, hw,
          tally_eq_setObserved hpw _ ▸ runsAlike_setObserved w _ _⟩⟩
      · exact ⟨w, htwo.trans hstep, hpw, Or.inr ⟨u, w, hu, (running_iff u).2 ⟨hhalt, hnone⟩, hw,
          runsAlike_setObserved w w.pipe w.mask⟩⟩
  | second _ hexec _ _ _ => exact absurd (hp.symm.trans hexec) nofun

/-! ### Runs (R184) -/

theorem runSteps_of_runCycles {fuel : Nat} {s t : State} (hp : s.phase = .ready) (h : runCycles fuel s = .finished t) :
    ∃ n u, runSteps n s = .finished u ∧ SameEnd t u := by
  induction fuel generalizing s with
  | zero =>
    cases hrun : running s with
    | true => exact absurd h (runCycles_zero_ne_finished hrun t)
    | false =>
      cases (runCycles_of_ended hrun 0).symm.trans h
      exact ⟨0, t, runSteps_of_ended hrun 0, sameEnd_refl t⟩
  | succ fuel ih =>
    cases hrun : running s with
    | false =>
      cases (runCycles_of_ended hrun _).symm.trans h
      exact ⟨0, t, runSteps_of_ended hrun 0, sameEnd_refl t⟩
    | true =>
      obtain ⟨c, hc, hpc, hsim⟩ := scheduleCycle_simulates hrun hp
      rw [runCycles_cycle hrun hc] at h
      obtain ⟨n, v, hv, hend⟩ := ih hpc h
      rcases hsim with ⟨u, hu, halike⟩ | ⟨u, u', hu, hrun', hu', halike⟩ <;> obtain ⟨w, hw, hvw⟩ := (halike n).1 v hv
      · exact ⟨n + 1, w, (runSteps_step hrun hu n).trans hw, sameEnd_trans hend hvw⟩
      · exact ⟨n + 2, w, (runSteps_step hrun hu (n + 1)).trans ((runSteps_step hrun' hu' n).trans hw), sameEnd_trans hend hvw⟩

theorem runCycles_of_runSteps {n : Nat} {s u : State} (hp : s.phase = .ready) (h : runSteps n s = .finished u) :
    ∃ t, runCycles n s = .finished t ∧ SameEnd t u := by
  induction n using Nat.strong_induction_on generalizing s u with
  | _ n ih =>
    cases hrun : running s with
    | false =>
      cases (runSteps_of_ended hrun n).symm.trans h
      exact ⟨s, runCycles_of_ended hrun n, sameEnd_refl s⟩
    | true =>
      obtain ⟨c, hc, hpc, hsim⟩ := scheduleCycle_simulates hrun hp
      obtain _ | n := n
      · exact absurd h (runSteps_zero_ne_finished hrun u)
      · rw [runCycles_cycle hrun hc]
        rcases hsim with ⟨v, hv, halike⟩ | ⟨v, v', hv, hrun', hv', halike⟩ <;> rw [runSteps_step hrun hv] at h
        · obtain ⟨w, hw, hwu⟩ := (halike n).2 u h
          obtain ⟨t, ht, hend⟩ := ih n (Nat.lt_succ_self n) hpc hw
          exact ⟨t, ht, sameEnd_trans hend hwu⟩
        · obtain _ | n := n
          · exact absurd h (runSteps_zero_ne_finished hrun' u)
          · rw [runSteps_step hrun' hv'] at h
            obtain ⟨w, hw, hwu⟩ := (halike n).2 u h
            obtain ⟨t, ht, hend⟩ := ih n (by omega) hpc hw
            exact ⟨t, runCycles_succ ht, sameEnd_trans hend hwu⟩

/-- Settles O60: each issue cycle is simulated by one or two engine steps, and takes no more fuel than they do. -/
theorem observerPreservesProgramSemantics : Obligations.ObserverPreservesProgramSemantics := fun _ hp =>
  ⟨fun _ _ => runSteps_of_runCycles hp, fun _ _ => runCycles_of_runSteps hp⟩

end Sys2Proof.Machine
end
